-- ==== Sys2Proof/Word.lean ====
section
/-! DEFINITION. The unit's word types: host words, data-register patterns, bytes and register indices. -/

namespace Sys2Proof

/-- A 32-bit host word: a command word, or the data of one window access (R301, R204). -/
abbrev Word := BitVec 32

/-- The 128-bit pattern a data register holds (R101, R102). -/
abbrev Raw := BitVec 128

/-- One byte of the register window (R203). -/
abbrev Byte := BitVec 8

/-- A data register index: an unsigned 4-bit field that selects F0 to F15 (R303). -/
abbrev Reg := Fin 16

end Sys2Proof
end

