-- ==== Sys2Proof/Config.lean ====
section
/-! DEFINITION. The implementation parameters of R12, the model's own policy for unwritten registers, and the model's one
free value. -/

namespace Sys2Proof

/-- The error GAVG raises when the product of its operands is negative (R12, R423). -/
inductive GavgSignError where
  | domain
  | overflow
  deriving DecidableEq, Repr

/-- The rounding of TOINT (R12, R911). -/
inductive ToIntRounding where
  | towardZero
  | floor
  deriving DecidableEq, Repr

/-- What the data registers, UNSPECIFIED after reset (R113), hold once the reset input has reset the unit.
DESIGN CHOICE (unsafe for `resetValue`, safe for `anyValue`), log entries 1 and 2: both readings are modelled. -/
inductive UninitPolicy where
  /-- Each holds the value the model names at reset. -/
  | resetValue
  /-- Each holds a free value, a new one at each reset: "`any value`" (93_implementation_defined.md U1). -/
  | anyValue
  deriving DecidableEq, Repr

/-- The parameters a model "takes as an argument" (R12). They are plain data that no step changes, so a statement about
every state holds for every value of them. `LATENCY(op)` is left out: no rule reads it (R1108; log entry 14). -/
structure Config where
  /-- `FXU_BASE`: the host address of the register window (R201). -/
  fxuBase : Nat
  gavgSignError : GavgSignError
  toIntRounding : ToIntRounding
  uninit : UninitPolicy
  deriving DecidableEq, Repr

/-- R12's defaults. `FXU_BASE` is OPEN there: DESIGN CHOICE 0 (log entry 4). `uninit`: DESIGN CHOICE (log entry 2). -/
def Config.default : Config :=
  { fxuBase := 0, gavgSignError := .domain, toIntRounding := .towardZero, uninit := .resetValue }

/-- FREE VALUE (DESIGN CHOICE, safe; log entry 7): the 128 bits a data register holds after the reset input, under the policy
`anyValue` (93_implementation_defined.md U1). The argument numbers the reset and the register. -/
opaque Config.freeRegister : Nat → BitVec 128

end Sys2Proof
end

