-- ==== Sys2Proof/Syntax.lean ====
section
/-! DEFINITION. The fifteen commands of the opcode map (R304). -/

namespace Sys2Proof

/-- The three command formats (R302). -/
inductive Format where
  /-- two sources: RD, RS1, RS2 -/
  | RR
  /-- one source: RD, RS1 -/
  | RU
  /-- constant: RD, K -/
  | RK
  deriving DecidableEq, Repr

/-- A decoded command: one constructor per row of the opcode map (R304), operands in the order rd, rs1, rs2 (R308).
The constant index of LDC is the whole 4-bit field K; that K is below 8 (R305) is a check of `Instr.WellFormed`. -/
inductive Instr where
  | abs (rd rs1 : Reg)
  | avg (rd rs1 rs2 : Reg)
  | gavg (rd rs1 rs2 : Reg)
  | mul (rd rs1 rs2 : Reg)
  | div (rd rs1 rs2 : Reg)
  | inv (rd rs1 : Reg)
  | sqrt (rd rs1 : Reg)
  | log2 (rd rs1 : Reg)
  | ln (rd rs1 : Reg)
  | exp2 (rd rs1 : Reg)
  | exp (rd rs1 : Reg)
  | pow (rd rs1 rs2 : Reg)
  | fromint (rd rs1 : Reg)
  | toint (rd rs1 : Reg)
  | ldc (rd : Reg) (k : Fin 16)
  deriving DecidableEq, Repr

end Sys2Proof
end

