-- ==== Sys2Proof/WellFormed.lean ====
section
/-! DEFINITION. The one check an instruction term can fail: LDC's constant index is below 8 (R305). -/

namespace Sys2Proof

/-- An instruction some command word decodes to. Every register field is a legal index (R101, R303), so only LDC's K is
checked: "The format is RK, and K ≥ 8" is illegal (R305). -/
def Instr.WellFormed : Instr → Bool
  | .abs _ _ | .avg _ _ _ | .gavg _ _ _ | .mul _ _ _ | .div _ _ _ | .inv _ _ | .sqrt _ _ | .log2 _ _
  | .ln _ _ | .exp2 _ _ | .exp _ _ | .pow _ _ _ | .fromint _ _ | .toint _ _ => true
  | .ldc _ k => decide (k.val < 8)

end Sys2Proof
end

