-- ==== Sys2Proof/Decode.lean ====
section
/-! DEFINITION. The decoder of R307, the encoder of R304, the host's numbering of a table word, a command's
destination and sources, and R309's pseudo-instructions. -/

namespace Sys2Proof

/-- The bit field of `width` bits of a command word whose lowest bit is `lo`, as an unsigned number (R14, R303). -/
def bitField (w : Word) (lo width : Nat) : Nat :=
  w.toNat / 2 ^ lo % 2 ^ width

/-- A 4-bit field as a register index or constant index, zero-extended (R303). -/
def nibble (w : Word) (lo : Nat) : Fin 16 :=
  ⟨bitField w lo 4, Nat.mod_lt _ (by decide)⟩

/-- The opcodes of R304 by name: `FORMAT` and `MNEMONIC` are functions of them. -/
inductive Opcode where
  | abs | avg | gavg | mul | div | inv | sqrt | log2 | ln | exp2 | exp | pow | fromint | toint | ldc
  deriving DecidableEq, Repr

/-- The OP value of each row of the opcode map (R304). -/
def Opcode.code : Opcode → Nat
  | .abs => 0x01
  | .avg => 0x02
  | .gavg => 0x03
  | .mul => 0x04
  | .div => 0x05
  | .inv => 0x06
  | .sqrt => 0x07
  | .log2 => 0x08
  | .ln => 0x09
  | .exp2 => 0x0A
  | .exp => 0x0B
  | .pow => 0x0C
  | .fromint => 0x10
  | .toint => 0x11
  | .ldc => 0x18

/-- The format of each row of the opcode map (R304). -/
def Opcode.format : Opcode → Format
  | .avg | .gavg | .mul | .div | .pow => .RR
  | .abs | .inv | .sqrt | .log2 | .ln | .exp2 | .exp | .fromint | .toint => .RU
  | .ldc => .RK

/-- The row of the opcode map with this OP value, if there is one (R304, R305). -/
def Opcode.ofCode : Nat → Option Opcode
  | 0x01 => some .abs
  | 0x02 => some .avg
  | 0x03 => some .gavg
  | 0x04 => some .mul
  | 0x05 => some .div
  | 0x06 => some .inv
  | 0x07 => some .sqrt
  | 0x08 => some .log2
  | 0x09 => some .ln
  | 0x0A => some .exp2
  | 0x0B => some .exp
  | 0x0C => some .pow
  | 0x10 => some .fromint
  | 0x11 => some .toint
  | 0x18 => some .ldc
  | _ => none

/-- The command of an opcode and the three index fields; a field the format lacks is dropped (R302). -/
def Opcode.build (o : Opcode) (rd s1 s2 : Fin 16) : Instr :=
  match o with
  | .abs => .abs rd s1
  | .avg => .avg rd s1 s2
  | .gavg => .gavg rd s1 s2
  | .mul => .mul rd s1 s2
  | .div => .div rd s1 s2
  | .inv => .inv rd s1
  | .sqrt => .sqrt rd s1
  | .log2 => .log2 rd s1
  | .ln => .ln rd s1
  | .exp2 => .exp2 rd s1
  | .exp => .exp rd s1
  | .pow => .pow rd s1 s2
  | .fromint => .fromint rd s1
  | .toint => .toint rd s1
  | .ldc => .ldc rd s1

/-- Why a word is ILLEGAL: the illegal cases of R305 and R307, each checked on its own. All of them are the one error
IllegalCommand to the unit. -/
inductive DecodeError where
  /-- RES, bits [11:0], is not 0. -/
  | reservedBits
  /-- OP is not one of the fifteen values of R304. -/
  | unassignedOpcode
  /-- The format is RU and RS2 is not 0. -/
  | rs2InRU
  /-- The format is RK and RS2 is not 0. -/
  | rs2InRK
  /-- The format is RK and K is 8 or more. -/
  | constIndex
  /-- Fewer than four bytes: no command word (R301: no other length exists). -/
  | tooShort
  deriving DecidableEq, Repr

/-- The field checks of R307 once the opcode is known. -/
def decodeFields (o : Opcode) (rd s1 s2 : Fin 16) : Except DecodeError Instr :=
  match o.format with
  | .RR => .ok (o.build rd s1 s2)
  | .RU => if s2.val ≠ 0 then .error .rs2InRU else .ok (o.build rd s1 s2)
  | .RK =>
    if s2.val ≠ 0 then .error .rs2InRK
    else if s1.val ≥ 8 then .error .constIndex
    else .ok (o.build rd s1 s2)

/-- The decoder of R307, total on 32-bit words. -/
def decode (w : Word) : Except DecodeError Instr :=
  if bitField w 0 12 ≠ 0 then .error .reservedBits
  else
    match Opcode.ofCode (bitField w 24 8) with
    | none => .error .unassignedOpcode
    | some o => decodeFields o (nibble w 20) (nibble w 16) (nibble w 12)

/-- Four window bytes in ascending address order as one word: the window is big-endian (R203). -/
def wordOfBytes (b0 b1 b2 b3 : Byte) : Word :=
  BitVec.ofNat 32 (2 ^ 24 * b0.toNat + 2 ^ 16 * b1.toNat + 2 ^ 8 * b2.toNat + b3.toNat)

/-- The decoder on any bytes, in the window's byte order: the command of the first four, and the rest. -/
def decodeBytes : List Byte → Except DecodeError (Instr × List Byte)
  | b0 :: b1 :: b2 :: b3 :: rest =>
    match decode (wordOfBytes b0 b1 b2 b3) with
    | .ok i => .ok (i, rest)
    | .error e => .error e
  | _ => .error .tooShort

/-! ### The encoder (R304) -/

/-- `word = OP<<24 | RD<<20 | RS1<<16 | RS2<<12` (R304); the fields do not overlap, so the sum is the OR. -/
def encodeFields (o : Opcode) (rd s1 s2 : Fin 16) : Word :=
  BitVec.ofNat 32 (2 ^ 24 * o.code + 2 ^ 20 * rd.val + 2 ^ 16 * s1.val + 2 ^ 12 * s2.val)

/-- The command word of an instruction (R304); RS2 is 0 in formats RU and RK (R302). -/
def encode : Instr → Word
  | .abs rd rs1 => encodeFields .abs rd rs1 0
  | .avg rd rs1 rs2 => encodeFields .avg rd rs1 rs2
  | .gavg rd rs1 rs2 => encodeFields .gavg rd rs1 rs2
  | .mul rd rs1 rs2 => encodeFields .mul rd rs1 rs2
  | .div rd rs1 rs2 => encodeFields .div rd rs1 rs2
  | .inv rd rs1 => encodeFields .inv rd rs1 0
  | .sqrt rd rs1 => encodeFields .sqrt rd rs1 0
  | .log2 rd rs1 => encodeFields .log2 rd rs1 0
  | .ln rd rs1 => encodeFields .ln rd rs1 0
  | .exp2 rd rs1 => encodeFields .exp2 rd rs1 0
  | .exp rd rs1 => encodeFields .exp rd rs1 0
  | .pow rd rs1 rs2 => encodeFields .pow rd rs1 rs2
  | .fromint rd rs1 => encodeFields .fromint rd rs1 0
  | .toint rd rs1 => encodeFields .toint rd rs1 0
  | .ldc rd k => encodeFields .ldc rd k 0

/-- The four bytes of a word in ascending address order (R203). -/
def bytesOfWord (w : Word) : List Byte :=
  [BitVec.ofNat 8 (bitField w 24 8), BitVec.ofNat 8 (bitField w 16 8), BitVec.ofNat 8 (bitField w 8 8),
    BitVec.ofNat 8 (bitField w 0 8)]

/-- The word of the host's numbering: bits `nbits - 1` to 0 of `w`, every bit above them 0. -/
def tableWord (nbits w : Nat) : Word :=
  BitVec.ofNat 32 (w % 2 ^ nbits)

/-- The instruction the decoder reads from a row of spec/opcode_table.json: the word is laid out as the four bytes the window
carries (R203) and given to the decoder. -/
def decodeTableWord (nbits w : Nat) : Option Instr :=
  match decodeBytes (bytesOfWord (tableWord nbits w)) with
  | .ok (i, _) => some i
  | .error _ => none

/-- The destination register RD (R301). -/
def Instr.dest : Instr → Reg
  | .abs rd _ | .avg rd _ _ | .gavg rd _ _ | .mul rd _ _ | .div rd _ _ | .inv rd _ | .sqrt rd _ | .log2 rd _
  | .ln rd _ | .exp2 rd _ | .exp rd _ | .pow rd _ _ | .fromint rd _ | .toint rd _ | .ldc rd _ => rd

/-- The source registers, in the order a command reads them (R302, R310). -/
def Instr.sources : Instr → List Reg
  | .avg _ a b | .gavg _ a b | .mul _ a b | .div _ a b | .pow _ a b => [a, b]
  | .abs _ a | .inv _ a | .sqrt _ a | .log2 _ a | .ln _ a | .exp2 _ a | .exp _ a | .fromint _ a | .toint _ a => [a]
  | .ldc _ _ => []

/-! ### Pseudo-instructions (R309): no opcode of their own -/

/-- `FROMRATIO Frd, Frs1, Frs2` is `DIV Frd, Frs1, Frs2` (R309, R921). -/
def Instr.fromRatio (rd rs1 rs2 : Reg) : Instr := .div rd rs1 rs2

/-- `MOV Frd, Frs` is `AVG Frd, Frs, Frs` (R309). -/
def Instr.mov (rd rs : Reg) : Instr := .avg rd rs rs

/-- `CLR Frd` is `LDC Frd, #ZERO` (R309). -/
def Instr.clr (rd : Reg) : Instr := .ldc rd 0

/-- `ONE Frd` is `LDC Frd, #SCALE` (R309). -/
def Instr.one (rd : Reg) : Instr := .ldc rd 1

end Sys2Proof
end

