-- ==== Sys2Proof/Machine/State.lean ====
section
/-! DEFINITION. The machine's state, its error kinds, the host's events, the reasons a step can stop, and the state after
reset. -/

namespace Sys2Proof.Machine

/-- The errors a command can end with (R1001). They are not stops: the machine goes on in the state R1006 gives. -/
inductive ErrorKind where
  | overflow
  | divisionByZero
  | negativeInput
  | nonPositiveInput
  | domain
  | illegalCommand
  deriving DecidableEq, Repr

/-- One thing the outside world does to the unit: a host access to the register window, or reset. -/
inductive BusEvent where
  /-- The host reads `width` bits at host address `addr`. -/
  | read (width addr : Nat)
  /-- The host writes `data`, an access of `width` bits, at host address `addr`. -/
  | write (width addr : Nat) (data : Word)
  /-- The reset input (R1101). `abandoned` is the command word in progress when it arrives, if any (R1102). -/
  | reset (abandoned : Option Word)
  deriving DecidableEq, Repr

/-- The machine. `F`, `written`, `code`, `err` and `ecmd` are the spec's state; `cfg`, `bus`, `readData` and `resets` are the
model's own fields (log entries 2 to 7). -/
structure State where
  /-- Data registers F0 to F15 (R101). -/
  F : Vector Raw 16
  /-- For each register its four words W0 to W3: written by the host or a command since reset (R104). -/
  written : Vector (Vector Bool 4) 16
  /-- STATUS.CODE, the error code of the most recent command (R105). -/
  code : BitVec 4
  /-- STATUS.ERR, sticky (R105). -/
  err : Bool
  /-- ECMD, the word of the most recent command that ended in error (R106). -/
  ecmd : Word
  /-- The implementation parameters (R12); no step changes them. -/
  cfg : Config
  /-- The host accesses and resets still to be served, in the bus's total order (R209, R210; log entry 5). -/
  bus : List BusEvent
  /-- The data the last served host read returned; `none` before the first (log entry 6). -/
  readData : Option Word
  /-- How many resets the unit has taken; it indexes the free values of the data registers (log entry 7). -/
  resets : Nat
  deriving DecidableEq, Repr

/-- Why a run stops without a next state. There is no such reason, so there is no constructor: every error of the unit is a next
state (R1006), and the `UninitRead` of R104 is a judgement on a program's run, `ProgramEnd.uninitRead` in HostProgram.lean, while
the unit itself reads the bits that stand there and goes on (R1104; log entry 2). -/
inductive Fault where
  deriving DecidableEq, Repr

/-- Why the model has no step. -/
inductive Refusal where
  /-- No meaning for this instruction yet. Raised by no arm: every instruction has its meaning. Safe. -/
  | notModelled (mnemonic : String)
  /-- A host access that breaks R204: a width other than 32, a misaligned offset, or an address outside the window. "A model
  refuses such an access". Raised when such an access is served. Safe (log entry 8). -/
  | busError
  deriving DecidableEq, Repr

/-- What a step of this machine answers. -/
abbrev Out := Host.Outcome State Fault Refusal

/-- No word of any register is written (R104). -/
def nothingWritten : Vector (Vector Bool 4) 16 :=
  Vector.replicate 16 (Vector.replicate 4 false)

/-- The machine right after reset (R113, R1101): STATUS and ECMD are 0 and no word is written. DESIGN CHOICE (unsafe): the data
registers, UNSPECIFIED in the spec, hold 0 (log entry 1); the parameters and the model's own fields are those of log entries 2
to 7. -/
def State.reset : State :=
  { F := Vector.replicate 16 0
    written := nothingWritten
    code := 0
    err := false
    ecmd := 0
    cfg := Config.default
    bus := []
    readData := none
    resets := 0 }

end Sys2Proof.Machine
end

