-- ==== Sys2Proof/Machine/Arith.lean ====
section
/-! DEFINITION. The notation and helper functions of R10 and R13 to R16: readings of a pattern, range check, shifts, quotients,
integer square root and bit scan. -/

namespace Sys2Proof.Machine

/-- A command's outcome: `return r`, or `raise e` (R17). -/
abbrev CmdResult := Except ErrorKind Int

/-- MIN = -2^127 (R10). -/
def MIN : Int := -2 ^ 127

/-- MAX = 2^127 - 1 (R10). -/
def MAX : Int := 2 ^ 127 - 1

/-- SCALE = 2^64, the raw value of 1.0 (R10, R20). -/
def SCALE : Int := 2 ^ 64

/-- `sval`: the two's-complement value of a pattern (R13). -/
def sval (v : Raw) : Int := v.toInt

/-- `uval`: the unsigned value of a pattern (R13). -/
def uval (v : Raw) : Nat := v.toNat

/-- The pattern `r mod 2^128` stored for an integer r (R13). -/
def toRaw (r : Int) : Raw := BitVec.ofInt 128 r

/-- `check(r)`: Overflow unless MIN ≤ r ≤ MAX (R16). -/
def checkRange (r : Int) : CmdResult :=
  if MIN ≤ r ∧ r ≤ MAX then .ok r else .error .overflow

/-- `a >> k` on integers: floor(a / 2^k) (R14). -/
def shr (a : Int) (k : Nat) : Int := a / 2 ^ k

/-- `a << k` on integers: 2^k · a (R14). -/
def shl (a : Int) (k : Nat) : Int := 2 ^ k * a

/-- `tdiv(n, d)`, the quotient truncated toward zero, for d ≠ 0 (R15). -/
def tdiv (n d : Int) : Int := Int.tdiv n d

/-- One bit of the square root a time, `k` bits to go: keep the bit when the square still fits. -/
def isqrtBits : Nat → Nat → Nat → Nat
  | 0, _, r => r
  | k + 1, n, r => isqrtBits k n (if (r + 2 ^ k) * (r + 2 ^ k) ≤ n then r + 2 ^ k else r)

/-- `isqrt(n)`: the largest r with r·r ≤ n (R15). -/
def isqrt (n : Nat) : Nat := isqrtBits (Nat.log2 n / 2 + 1) n 0

/-- `msb(n)`, for n > 0: the largest k with 2^k ≤ n (R15). -/
def msb (n : Nat) : Nat := Nat.log2 n

end Sys2Proof.Machine
end

