-- ==== Sys2Proof/Machine/Rom.lean ====
section
/-! DEFINITION. The constant ROM (R108) and the EXP2 constant table (R109, R745). The digits are the spec's own decisions, not a
library's (log entry 15). -/

namespace Sys2Proof.Machine

/-- E_RAW (R11, R108). -/
def E_RAW : Int := 0x2B7E151628AED2A6B

/-- PI_RAW (R11, R108). -/
def PI_RAW : Int := 0x3243F6A8885A308D3

/-- LN2_RAW (R11, R108). -/
def LN2_RAW : Int := 0xB17217F7D1CF79AC

/-- LOG2E_RAW (R11, R108). -/
def LOG2E_RAW : Int := 0x171547652B82FE177

/-- The constant ROM by index: ZERO, SCALE, E, PI, LN2, LOG2E, MIN, MAX; indices 8 to 15 hold nothing (R108, R305). -/
def constRom (k : Fin 16) : Option Int :=
  match k.val with
  | 0 => some 0
  | 1 => some SCALE
  | 2 => some E_RAW
  | 3 => some PI_RAW
  | 4 => some LN2_RAW
  | 5 => some LOG2E_RAW
  | 6 => some MIN
  | 7 => some MAX
  | _ => none

/-- EXP2_CONST, entries 1 to 16 (R745). -/
def exp2Part1 : List Nat := [
  0x16A09E667F3BCC908B2FB1366EA957D3E,
  0x1306FE0A31B7152DE8D5A46305C85EDEC,
  0x1172B83C7D517ADCDF7C8C50EB14A7920,
  0x10B5586CF9890F6298B92B71842A98364,
  0x1059B0D31585743AE7C548EB68CA417FE,
  0x102C9A3E778060EE6F7CACA4F7A29BDE9,
  0x10163DA9FB33356D84A66AE336DCDFA40,
  0x100B1AFA5ABCBED6129AB13EC11DC9544,
  0x10058C86DA1C09EA1FF19D294CF2F679C,
  0x1002C605E2E8CEC506D21BFC89A23A010,
  0x100162F3904051FA128BCA9C55C31E5E0,
  0x1000B175EFFDC76BA38E31671CA939726,
  0x100058BA01FB9F96D6CACD4B180917C3E,
  0x10002C5CC37DA9491D0985C348C68E7B3,
  0x1000162E525EE054754457D5995292026,
  0x10000B17255775C040618BF4A4ADE83FC]

/-- EXP2_CONST, entries 17 to 32 (R745). -/
def exp2Part2 : List Nat := [
  0x1000058B91B5BC9AE2EED81E9B7D4CFAC,
  0x100002C5C89D5EC6CA4D7C8ACC017B7C9,
  0x10000162E43F4F831060E02D839A9D16D,
  0x100000B1721BCFC99D9F890EA06911763,
  0x10000058B90CF1E6D97F9CA14DBCC1628,
  0x1000002C5C863B73F016468F6BAC5CA2C,
  0x100000162E430E5A18F6119E3C02282A5,
  0x1000000B1721835514B86E6D96EFD1BFF,
  0x100000058B90C0B48C6BE5DF846C5B2F0,
  0x10000002C5C8601CC6B9E94213C72737A,
  0x1000000162E42FFF037DF38AA2B219F06,
  0x10000000B17217FBA9C739AA5819F44F9,
  0x1000000058B90BFCDEE5ACD3C1CEDC823,
  0x100000002C5C85FE31F35A6A30DA1BE50,
  0x10000000162E42FF0999CE3541B9FFFCF,
  0x100000000B17217F80F4EF5AADDA45554]

/-- EXP2_CONST, entries 33 to 48 (R745). -/
def exp2Part3 : List Nat := [
  0x10000000058B90BFBF8479BD5A81B51AD,
  0x1000000002C5C85FDF84BD62AE30A74CC,
  0x100000000162E42FEFB2FED257559BDAA,
  0x1000000000B17217F7D5A7716BBA4A9AF,
  0x100000000058B90BFBE9DDBAC5E109CCF,
  0x10000000002C5C85FDF4B15DE6F17EB0D,
  0x1000000000162E42FEFA494F1478FDE05,
  0x10000000000B17217F7D20CF927C8E94C,
  0x1000000000058B90BFBE8F71CB4E4B33E,
  0x100000000002C5C85FDF477B662B26945,
  0x10000000000162E42FEFA3AE53369388C,
  0x100000000000B17217F7D1D351A389D40,
  0x10000000000058B90BFBE8E8B2D3D4EDE,
  0x1000000000002C5C85FDF4741BEA6E77F,
  0x100000000000162E42FEFA39FE95583C3,
  0x1000000000000B17217F7D1CFB72B45E2]

/-- EXP2_CONST, entries 49 to 64 (R745). -/
def exp2Part4 : List Nat := [
  0x100000000000058B90BFBE8E7CC35C3F1,
  0x10000000000002C5C85FDF473E242EA38,
  0x1000000000000162E42FEFA39F02B772C,
  0x10000000000000B17217F7D1CF7D83C1A,
  0x1000000000000058B90BFBE8E7BDCBE2E,
  0x100000000000002C5C85FDF473DEA871F,
  0x10000000000000162E42FEFA39EF44D91,
  0x100000000000000B17217F7D1CF79E949,
  0x10000000000000058B90BFBE8E7BCE544,
  0x1000000000000002C5C85FDF473DE6ECA,
  0x100000000000000162E42FEFA39EF366F,
  0x1000000000000000B17217F7D1CF79AFA,
  0x100000000000000058B90BFBE8E7BCD6D,
  0x10000000000000002C5C85FDF473DE6B2,
  0x1000000000000000162E42FEFA39EF358,
  0x10000000000000000B17217F7D1CF79AC]

/-- EXP2_CONST[1..64] in order (R745). -/
def exp2Table : List Nat := exp2Part1 ++ exp2Part2 ++ exp2Part3 ++ exp2Part4

/-- EXP2_CONST[k] = floor(2^(2^-k) · 2^128), for k = 1 to 64 (R745). -/
def exp2Const (k : Nat) : Nat := exp2Table.getD (k - 1) 0

end Sys2Proof.Machine
end

