-- ==== Sys2Proof/Machine/Flags.lean ====
section
/-! DEFINITION. STATUS: the error codes, the word the host reads, and the write-1-to-clear of ERR (R105, R1001). -/

namespace Sys2Proof.Machine

/-- The error codes (R1001); 0 is no error. -/
def ErrorKind.code : ErrorKind → BitVec 4
  | .overflow => 1
  | .divisionByZero => 2
  | .negativeInput => 3
  | .nonPositiveInput => 4
  | .domain => 5
  | .illegalCommand => 6

/-- The STATUS word: `zext_32(ERR << 8 | CODE)`, the reserved bits 0 (R105, R213). -/
def State.status (s : State) : Word :=
  BitVec.ofNat 32 ((if s.err then 2 ^ 8 else 0) + s.code.toNat)

/-- A host write of `v` to STATUS: bit 8 = 1 clears ERR, and nothing else has an effect (R105, R206). -/
def State.writeStatus (s : State) (v : Word) : State :=
  if v.getLsbD 8 then { s with err := false } else s

end Sys2Proof.Machine
end

