-- ==== Sys2Proof/Machine/Ops.lean ====
section
/-! DEFINITION. The named operations over the state: reading and writing data registers, completing a command (R1005), ending one
in error (R1006), the register window's word access (R202, R213), and reset (R1101). -/

namespace Sys2Proof.Machine

/-- The pattern in data register r, read whole (R205, R310). -/
def State.reg (s : State) (r : Reg) : Raw := s.F[r.val]

/-- All four words of r have been written since reset (R104). -/
def State.allWritten (s : State) (r : Reg) : Bool :=
  s.written[r.val][0] && s.written[r.val][1] && s.written[r.val][2] && s.written[r.val][3]

/-- `UninitRead` of R104 and R310: the first source register of command word w that has a word nothing has written since reset, if
it has one. An illegal word reads no register (R305). It is no stop of the unit, which reads what stands there (R1104); it ends
the run of a program, `runProgram` (R1012; log entry 2). -/
def State.uninitRead (s : State) (w : Word) : Option Reg :=
  match decode w with
  | .ok i => i.sources.find? fun r => !s.allWritten r
  | .error _ => none

/-- A command completes with result v (R1005): F[rd] is written, whole, and CODE is 0; ERR and ECMD stay. -/
def State.complete (s : State) (rd : Reg) (v : Int) : State :=
  { s with
    F := s.F.set rd.val (toRaw v)
    written := s.written.set rd.val (Vector.replicate 4 true)
    code := 0 }

/-- Taking an error, the unit's one kind of exception (R1006): no data register changes, CODE is the error's code, ERR is set,
and ECMD is the failing command word. There is no handler and no return (R1009). -/
def State.raiseError (s : State) (e : ErrorKind) (w : Word) : State :=
  { s with code := e.code, err := true, ecmd := w }

/-- The end of command word w with destination rd (R310): `return` completes it, `raise` is the error. -/
def State.finish (s : State) (w : Word) (rd : Reg) : CmdResult → State
  | .ok v => s.complete rd v
  | .error e => s.raiseError e w

/-! ### The register window -/

/-- F<i>.W<j>: bits [127 - 32·j : 96 - 32·j] of a data register (R202). -/
def regWord (v : Raw) (j : Nat) : Word := v.extractLsb' (96 - 32 * j) 32

/-- A data register with word j replaced by v (R206, R213). -/
def setRegWord (old : Raw) (j : Nat) (v : Word) : Raw :=
  (old &&& ~~~((0xFFFFFFFF#128) <<< (96 - 32 * j))) ||| ((v.setWidth 128) <<< (96 - 32 * j))

/-- The register and word of a window offset below 0x100: i = off / 16, j = (off mod 16) / 4 (R213). -/
def regOfOffset (off : Nat) : Reg := ⟨off / 16 % 16, Nat.mod_lt _ (by decide)⟩

/-- See `regOfOffset`. -/
def wordOfOffset (off : Nat) : Fin 4 := ⟨off % 16 / 4, by omega⟩

/-- What the host reads at F<r>.W<j>: the register's bits (R213). In a word nothing has written since reset they are whatever the
register holds (93_implementation_defined.md U1; log entries 1, 2 and 7). -/
def State.readRegWord (s : State) (r : Reg) (j : Fin 4) : Word := regWord (s.reg r) j.val

/-- The host writes v to F<r>.W<j>: those 32 bits are replaced and the word is marked written (R213). -/
def State.writeRegWord (s : State) (r : Reg) (j : Fin 4) (v : Word) : State :=
  { s with
    F := s.F.set r.val (setRegWord (s.reg r) j.val v)
    written := s.written.set r.val (s.written[r.val].set j.val true) }

/-- Window offsets of the three control registers (R202). -/
def offCMD : Nat := 0x100

/-- See `offCMD`. -/
def offSTATUS : Nat := 0x104

/-- See `offCMD`. -/
def offECMD : Nat := 0x108

/-- `HostRead(off)` (R213), for an offset R204 allows. -/
def State.hostRead (s : State) (off : Nat) : Word :=
  if off < 0x100 then s.readRegWord (regOfOffset off) (wordOfOffset off)
  else if off = offCMD then 0
  else if off = offSTATUS then s.status
  else if off = offECMD then s.ecmd
  else 0

/-- The window byte at a byte offset: byte o of an aligned word is its bits [31:24], and so on down (R203). -/
def State.windowByte (s : State) (off : Nat) : Byte :=
  (s.hostRead (off / 4 * 4)).extractLsb' (24 - 8 * (off % 4)) 8

/-- The window offset of a host access, if R204 allows the access: 32 bits wide, aligned to 4, inside the window. -/
def State.accessOffset (s : State) (width addr : Nat) : Option Nat :=
  if width = 32 ∧ s.cfg.fxuBase ≤ addr ∧ (addr - s.cfg.fxuBase) % 4 = 0 ∧ addr - s.cfg.fxuBase < 0x200 then
    some (addr - s.cfg.fxuBase)
  else none

/-! ### Reset -/

/-- The data registers after the reset input: UNSPECIFIED (R113), so the value `State.reset` names or a free value, as the policy
says (log entries 1, 2 and 7). -/
def State.resetRegisters (s : State) : Vector Raw 16 :=
  match s.cfg.uninit with
  | .resetValue => State.reset.F
  | .anyValue => Vector.ofFn fun r : Fin 16 => Config.freeRegister (16 * s.resets + r.val)

/-- The reset input: every register of the unit has its reset value (R1101), whatever command it abandons (R1102). The
parameters, the host's pending accesses and what the host last read are not the unit's registers and stay (log entry 9). -/
def State.resetUnit (s : State) : State :=
  { State.reset with
    F := s.resetRegisters
    cfg := s.cfg
    bus := s.bus
    readData := s.readData
    resets := s.resets + 1 }

end Sys2Proof.Machine
end

