-- ==== Sys2Proof/Machine/Operands.lean ====
section
/-! DEFINITION. The command cycle for each format (R302, R310): read the sources whole, run the instruction rule, finish. The
rule gets the patterns and decides itself how it reads them (R102). -/

namespace Sys2Proof.Machine

/-- Format RU: one source. `i` is the command itself, whose word an error records (R1006; log entry 11). -/
def runRU (i : Instr) (rd rs1 : Reg) (rule : Raw → CmdResult) (s : State) : Out :=
  .next (s.finish (encode i) rd (rule (s.reg rs1)))

/-- Format RR: two sources, both read before rd is written (R310). -/
def runRR (i : Instr) (rd rs1 rs2 : Reg) (rule : Raw → Raw → CmdResult) (s : State) : Out :=
  .next (s.finish (encode i) rd (rule (s.reg rs1) (s.reg rs2)))

/-- Format RK: no source (R931). -/
def runRK (i : Instr) (rd : Reg) (rule : CmdResult) (s : State) : Out :=
  .next (s.finish (encode i) rd rule)

end Sys2Proof.Machine
end

