-- ==== Sys2Proof/Machine/Convert.lean ====
section
/-! DEFINITION. FROMINT, TOINT and LDC (45_convert.md). -/

namespace Sys2Proof.Machine

/-- FROMINT: i · 2^64, checked (R901). -/
def fromIntRule (i : Int) : CmdResult := checkRange (shl i 64)

/-- TOINT: the fraction dropped, by the rounding the parameter names (R911, R912). -/
def toIntRule (rounding : ToIntRounding) (x : Int) : CmdResult :=
  match rounding with
  | .towardZero => .ok (tdiv x (2 ^ 64))
  | .floor => .ok (shr x 64)

/-- LDC: the ROM entry (R931). An index of 8 or more reaches no LDC from a command word (R305); the term ends as the decoder
ends such a word (log entry 10). -/
def ldcRule (k : Fin 16) : CmdResult :=
  match constRom k with
  | some v => .ok v
  | none => .error .illegalCommand

/-- FROMINT Frd, Frs1 (R901). -/
def execFromint (rd rs1 : Reg) (s : State) : Out :=
  runRU (.fromint rd rs1) rd rs1 (fun a => fromIntRule (sval a)) s

/-- TOINT Frd, Frs1 (R911). -/
def execToint (rd rs1 : Reg) (s : State) : Out :=
  runRU (.toint rd rs1) rd rs1 (fun a => toIntRule s.cfg.toIntRounding (sval a)) s

/-- LDC Frd, #k (R931). -/
def execLdc (rd : Reg) (k : Fin 16) (s : State) : Out :=
  runRK (.ldc rd k) rd (ldcRule k) s

end Sys2Proof.Machine
end

