-- ==== Sys2Proof/Machine/MulDiv.lean ====
section
/-! DEFINITION. MUL, DIV and INV (41_mul_div.md). -/

namespace Sys2Proof.Machine

/-- MUL: the exact product, rounded toward negative infinity, then checked (R501, R502). -/
def mulRule (x y : Int) : CmdResult := checkRange (shr (x * y) 64)

/-- DIV: a zero divisor first (R513), then the widened quotient truncated toward zero (R511, R512). -/
def divRule (x y : Int) : CmdResult :=
  if y = 0 then .error .divisionByZero else checkRange (tdiv (shl x 64) y)

/-- INV: 2^128 / x truncated toward zero (R521, R522). -/
def invRule (x : Int) : CmdResult :=
  if x = 0 then .error .divisionByZero else checkRange (tdiv (2 ^ 128) x)

/-- MUL Frd, Frs1, Frs2 (R501). -/
def execMul (rd rs1 rs2 : Reg) (s : State) : Out :=
  runRR (.mul rd rs1 rs2) rd rs1 rs2 (fun a b => mulRule (sval a) (sval b)) s

/-- DIV Frd, Frs1, Frs2 (R511); also FROMRATIO (R921). -/
def execDiv (rd rs1 rs2 : Reg) (s : State) : Out :=
  runRR (.div rd rs1 rs2) rd rs1 rs2 (fun a b => divRule (sval a) (sval b)) s

/-- INV Frd, Frs1 (R521). -/
def execInv (rd rs1 : Reg) (s : State) : Out :=
  runRU (.inv rd rs1) rd rs1 (fun a => invRule (sval a)) s

end Sys2Proof.Machine
end

