-- ==== Sys2Proof/Machine/LogExp.lean ====
section
/-! DEFINITION. LOG2, LN, EXP2 and EXP (43_log_exp.md). -/

namespace Sys2Proof.Machine

/-- The squaring recurrence of R701 with `i` fractional bits to go, most significant first: the sum of the bits emitted from
mantissa m. The square is kept, halved when it reaches 2, and truncated to 128 bits (R703). -/
def log2Fraction : Nat → Nat → Nat
  | 0, _ => 0
  | i + 1, m =>
    2 ^ i * ((m * m) >>> 255) + log2Fraction i ((m * m) >>> (127 + (m * m) >>> 255))

/-- LOG2 (R701): bit scan for the integer part, recurrence for the fraction. -/
def log2Rule (x : Int) : CmdResult :=
  if x ≤ 0 then .error .nonPositiveInput
  else
    let k := msb x.toNat
    .ok (shl (k - 64) 64 + log2Fraction 64 (x.toNat <<< (127 - k)))

/-- LN: `mul(log2(x), LN2)` (R721). -/
def lnRule (x : Int) : CmdResult :=
  match log2Rule x with
  | .ok l => mulRule l LN2_RAW
  | .error e => .error e

/-- The constant product of R731 with the `j` low bits of fraction f to go, that is k = 65 - j to 64: each bit of weight 2^-k
that is set multiplies by EXP2_CONST[k], truncated. -/
def exp2Product : Nat → Nat → Nat → Nat
  | 0, _, r => r
  | j + 1, f, r => exp2Product j f (if f.testBit j then (r * exp2Const (64 - j)) >>> 128 else r)

/-- EXP2 (R731): overflow test, underflow-to-zero, then floor part, fraction product and the final shift. The fraction
`x & (2^64 - 1)` is x mod 2^64, as R731's own comment says (log entry 12). -/
def exp2Rule (x : Int) : CmdResult :=
  if x ≥ shl 63 64 then .error .overflow
  else if x ≤ -(shl 64 64) then .ok 0
  else
    .ok ((exp2Product 64 (x % 2 ^ 64).toNat (2 ^ 127)) >>> (63 - shr x 64).toNat : Nat)

/-- EXP: the underflow test first, then `exp2(mul(x, LOG2E))` (R751, R752). -/
def expRule (x : Int) : CmdResult :=
  if x ≤ -(shl 64 64) then .ok 0
  else
    match mulRule x LOG2E_RAW with
    | .ok y => exp2Rule y
    | .error e => .error e

/-- LOG2 Frd, Frs1 (R701). -/
def execLog2 (rd rs1 : Reg) (s : State) : Out :=
  runRU (.log2 rd rs1) rd rs1 (fun a => log2Rule (sval a)) s

/-- LN Frd, Frs1 (R721). -/
def execLn (rd rs1 : Reg) (s : State) : Out :=
  runRU (.ln rd rs1) rd rs1 (fun a => lnRule (sval a)) s

/-- EXP2 Frd, Frs1 (R731). -/
def execExp2 (rd rs1 : Reg) (s : State) : Out :=
  runRU (.exp2 rd rs1) rd rs1 (fun a => exp2Rule (sval a)) s

/-- EXP Frd, Frs1 (R751). -/
def execExp (rd rs1 : Reg) (s : State) : Out :=
  runRU (.exp rd rs1) rd rs1 (fun a => expRule (sval a)) s

end Sys2Proof.Machine
end

