-- ==== Sys2Proof/Machine/Pow.lean ====
section
/-! DEFINITION. POW (44_pow.md): square-and-multiply, one iteration per exponent bit. The loops carry the number of iterations
left; 128 is enough for a 128-bit exponent (R1107), so the count never ends a loop early. -/

namespace Sys2Proof.Machine

/-- The result mantissa before the first step: 1.0 with 128 fractional bits (R801). -/
def powOne : Nat := 2 ^ 128

/-- The base mantissa for |x| ≤ 1.0: m with 127 fractional bits (R801). -/
def powSmallStart (m : Nat) : Nat := m <<< 63

/-- The multiply step for |x| ≤ 1.0: r keeps 128 fractional bits (R801). -/
def powSmallMul (r t : Nat) : Nat := (r * t) >>> 127

/-- The square step for |x| ≤ 1.0: t keeps 127 fractional bits (R801). -/
def powSmallSquare (t : Nat) : Nat := (t * t) >>> 127

/-- The loop of R801 for |x| ≤ 1.0: result mantissa r (128 fractional bits), base t (127), exponent e. -/
def powSmallLoop : Nat → Nat → Nat → Nat → Nat
  | 0, r, _, _ => r
  | n + 1, r, t, e =>
    if e = 0 then r
    else powSmallLoop n (if e % 2 = 1 then powSmallMul r t else r) (powSmallSquare t) (e / 2)

/-- A mantissa and its power-of-two exponent: (r / 2^128)·2^rs or (t / 2^127)·2^s (R801). -/
structure Scaled where
  mant : Nat
  exp : Nat
  deriving DecidableEq, Repr

/-- The base for |x| > 1.0: m normalised to a mantissa in [2^127, 2^128), and the exponent that goes with it (R801). -/
def powLargeStart (m : Nat) : Scaled := { mant := m <<< (127 - msb m), exp := msb m - 64 }

/-- The multiply step for |x| > 1.0, with R801's renormalisation of the result mantissa. -/
def powMulStep (r t : Scaled) : Scaled :=
  if (r.mant * t.mant) >>> 127 > 2 ^ 128 then
    { mant := (r.mant * t.mant) >>> 127 >>> 1, exp := r.exp + t.exp + 1 }
  else { mant := (r.mant * t.mant) >>> 127, exp := r.exp + t.exp }

/-- The square step for |x| > 1.0, with R801's renormalisation of the base mantissa. -/
def powSquareStep (t : Scaled) : Scaled :=
  if (t.mant * t.mant) >>> 127 ≥ 2 ^ 128 then
    { mant := (t.mant * t.mant) >>> 127 >>> 1, exp := 2 * t.exp + 1 }
  else { mant := (t.mant * t.mant) >>> 127, exp := 2 * t.exp }

/-- The loop of R801 for |x| > 1.0; Overflow when the base power reaches 2^64 with exponent bits left (R805, place 1). -/
def powLargeLoop : Nat → Scaled → Scaled → Nat → Except ErrorKind Scaled
  | 0, r, _, _ => .ok r
  | n + 1, r, t, e =>
    if e = 0 then .ok r
    else if t.exp ≥ 64 then .error .overflow
    else powLargeLoop n (if e % 2 = 1 then powMulStep r t else r) (powSquareStep t) (e / 2)

/-- The rounded magnitude |x|^n for m = |x|, before the sign is applied (R801; R805, places 1 and 2). -/
def powMagnitude (m n : Nat) : Except ErrorKind Nat :=
  if m ≤ 2 ^ 64 then .ok (powSmallLoop 128 powOne (powSmallStart m) n >>> 64)
  else
    match powLargeLoop 128 ⟨powOne, 0⟩ (powLargeStart m) n with
    | .ok r => if r.exp ≥ 64 then .error .overflow else .ok (r.mant >>> (64 - r.exp))
    | .error e => .error e

/-- POW (R801): the sign is applied to the rounded magnitude (R804), then the range is checked (R805, place 3). -/
def powRule (x : Int) (n : Nat) : CmdResult :=
  match powMagnitude x.natAbs n with
  | .error e => .error e
  | .ok mag =>
    if x < 0 ∧ n % 2 = 1 then
      if mag > 2 ^ 127 then .error .overflow else .ok (-(mag : Int))
    else if (mag : Int) > MAX then .error .overflow
    else .ok mag

/-- POW Frd, Frs1, Frs2: rs2 is read as `uval` (R801, R808). -/
def execPow (rd rs1 rs2 : Reg) (s : State) : Out :=
  runRR (.pow rd rs1 rs2) rd rs1 rs2 (fun a b => powRule (sval a) (uval b)) s

end Sys2Proof.Machine
end

