-- ==== Sys2Proof/Machine/SignAvg.lean ====
section
/-! DEFINITION. ABS, AVG and GAVG (40_sign_avg.md). -/

namespace Sys2Proof.Machine

/-- ABS (R401, R402). -/
def absRule (x : Int) : CmdResult :=
  if x = MIN then .error .overflow else .ok |x|

/-- AVG, rounded toward negative infinity (R411). -/
def avgRule (x y : Int) : CmdResult := .ok (shr (x + y) 1)

/-- The error a negative product raises (R423). -/
def gavgError : GavgSignError → ErrorKind
  | .domain => .domain
  | .overflow => .overflow

/-- GAVG: the floor of the root of the exact product (R421 to R425). -/
def gavgRule (signError : GavgSignError) (x y : Int) : CmdResult :=
  if x * y < 0 then .error (gavgError signError)
  else checkRange (isqrt (x * y).toNat)

/-- ABS Frd, Frs1 (R401). -/
def execAbs (rd rs1 : Reg) (s : State) : Out :=
  runRU (.abs rd rs1) rd rs1 (fun a => absRule (sval a)) s

/-- AVG Frd, Frs1, Frs2 (R411). -/
def execAvg (rd rs1 rs2 : Reg) (s : State) : Out :=
  runRR (.avg rd rs1 rs2) rd rs1 rs2 (fun a b => avgRule (sval a) (sval b)) s

/-- GAVG Frd, Frs1, Frs2 (R421). -/
def execGavg (rd rs1 rs2 : Reg) (s : State) : Out :=
  runRR (.gavg rd rs1 rs2) rd rs1 rs2 (fun a b => gavgRule s.cfg.gavgSignError (sval a) (sval b)) s

end Sys2Proof.Machine
end

