-- ==== Sys2Proof/Machine/Sqrt.lean ====
section
/-! DEFINITION. SQRT (42_sqrt.md). -/

namespace Sys2Proof.Machine

/-- SQRT: the floor of the root of the widened radicand; it cannot overflow (R601, R603). -/
def sqrtRule (x : Int) : CmdResult :=
  if x < 0 then .error .negativeInput else .ok (isqrt (shl x 64).toNat)

/-- SQRT Frd, Frs1 (R601). -/
def execSqrt (rd rs1 : Reg) (s : State) : Out :=
  runRU (.sqrt rd rs1) rd rs1 (fun a => sqrtRule (sval a)) s

end Sys2Proof.Machine
end

