-- ==== Sys2Proof/Machine/Dispatch.lean ====
section
/-! DEFINITION. One arm per command: its meaning (R310, R304). -/

namespace Sys2Proof.Machine

def exec (i : Instr) (s : State) : Host.Outcome State Fault Refusal :=
  match i with
  | .abs rd rs1 => Sys2Proof.Machine.execAbs rd rs1 s
  | .avg rd rs1 rs2 => Sys2Proof.Machine.execAvg rd rs1 rs2 s
  | .gavg rd rs1 rs2 => Sys2Proof.Machine.execGavg rd rs1 rs2 s
  | .mul rd rs1 rs2 => Sys2Proof.Machine.execMul rd rs1 rs2 s
  | .div rd rs1 rs2 => Sys2Proof.Machine.execDiv rd rs1 rs2 s
  | .inv rd rs1 => Sys2Proof.Machine.execInv rd rs1 s
  | .sqrt rd rs1 => Sys2Proof.Machine.execSqrt rd rs1 s
  | .log2 rd rs1 => Sys2Proof.Machine.execLog2 rd rs1 s
  | .ln rd rs1 => Sys2Proof.Machine.execLn rd rs1 s
  | .exp2 rd rs1 => Sys2Proof.Machine.execExp2 rd rs1 s
  | .exp rd rs1 => Sys2Proof.Machine.execExp rd rs1 s
  | .pow rd rs1 rs2 => Sys2Proof.Machine.execPow rd rs1 rs2 s
  | .fromint rd rs1 => Sys2Proof.Machine.execFromint rd rs1 s
  | .toint rd rs1 => Sys2Proof.Machine.execToint rd rs1 s
  | .ldc rd k => Sys2Proof.Machine.execLdc rd k s

end Sys2Proof.Machine
end

