-- ==== Sys2Proof/Machine/Window.lean ====
section
/-! DEFINITION. The command cycle (R310) and the host's accesses as the unit serves them (R206, R213). -/

namespace Sys2Proof.Machine

/-- `execute(w)` (R310): an ILLEGAL word is the error IllegalCommand, before any register is read (R305, R1007); any other runs
its instruction. -/
def execute (w : Word) (s : State) : Out :=
  match decode w with
  | .error _ => .next (s.raiseError .illegalCommand w)
  | .ok i => exec i s

/-- `HostWrite(off, v)` (R213), for an offset R204 allows. -/
def hostWrite (off : Nat) (v : Word) (s : State) : Out :=
  if off < 0x100 then .next (s.writeRegWord (regOfOffset off) (wordOfOffset off) v)
  else if off = offCMD then execute v s
  else if off = offSTATUS then .next (s.writeStatus v)
  else .next s

/-- The unit serves one event: a read returns its data and changes nothing else (R206), a write has its effect, an access R204
does not allow has no step, and reset gives the reset state, whatever command it abandons (R1101, R1102). -/
def serve (ev : BusEvent) (s : State) : Out :=
  match ev with
  | .read width addr =>
    match s.accessOffset width addr with
    | some off => .next { s with readData := some (s.hostRead off) }
    | none => .refused .busError
  | .write width addr data =>
    match s.accessOffset width addr with
    | some off => hostWrite off data s
    | none => .refused .busError
  | .reset _ => .next s.resetUnit

/-- The CMD write that runs command word w (R107). -/
def cmdWrite (s : State) (w : Word) : BusEvent := .write 32 (s.cfg.fxuBase + offCMD) w

end Sys2Proof.Machine
end

