-- ==== Sys2Proof/Machine/Step.lean ====
section
/-! DEFINITION. One step of the machine, and where it takes its next command from. -/

namespace Sys2Proof.Machine

/-- One step: the unit serves the first pending bus event (R209); with nothing pending it is idle and keeps all state (R1014). -/
def step (s : State) : Host.Outcome State Fault Refusal :=
  match s.bus with
  | [] => .next s
  | ev :: rest => serve ev { s with bus := rest }

/-- The unit fetches nothing (R212): its next command is the next CMD write. So the word stands first among the pending bus
events, as a CMD write (R107; log entry 5). -/
def State.withFetchWord (s : State) (nbits w : Nat) : State :=
  { s with bus := cmdWrite s (tableWord nbits w) :: s.bus }

end Sys2Proof.Machine
end

