-- ==== Sys2Proof/Machine/HostProgram.lean ====
section
/-! DEFINITION. The host's side: loading a register by four word writes (R205, R1104), and the program discipline of R1012, which
is a duty of the host and not a property of the unit. Also the assembler spelling of a command (R308). -/

namespace Sys2Proof.Machine

/-- The four word writes that load Fr with the pattern v (R202, R1104). -/
def loadReg (r : Reg) (v : Raw) (s : State) : State :=
  (((s.writeRegWord r 0 (regWord v 0)).writeRegWord r 1 (regWord v 1)).writeRegWord r 2 (regWord v 2)).writeRegWord
    r 3 (regWord v 3)

/-- How a program ends (R1012). -/
inductive ProgramEnd where
  /-- All commands completed with CODE = 0. -/
  | ended (s : State)
  /-- The command at `pc` ended in error: CODE and ECMD stand in `s`. -/
  | faultedAt (pc : Nat) (s : State)
  /-- The command at `pc` reads source register `r` with an unwritten word: the model fault `UninitRead` of R104, which is not an
  end of the unit. The run has no further state (R1012; log entry 2). -/
  | uninitRead (pc : Nat) (r : Reg)
  /-- The CMD write at `pc` is refused. No CMD write is, so no run ends here. -/
  | stopped (pc : Nat)
  deriving DecidableEq, Repr

/-- Issue the command words in order by CMD writes, read CODE after each, and stop at the first that is not 0; `pc` is the
number of commands completed so far (R1012). A command that would read an unwritten word ends the run before it is issued (R104). -/
def runProgram : List Word → Nat → State → ProgramEnd
  | [], _, s => .ended s
  | w :: ws, pc, s =>
    match s.uninitRead w with
    | some r => .uninitRead pc r
    | none =>
      match hostWrite offCMD w s with
      | .next t => if t.code = 0 then runProgram ws (pc + 1) t else .faultedAt pc t
      | .fault _ => .stopped pc
      | .refused _ => .stopped pc

/-- The assembler name of a data register (R308). -/
def regName (r : Reg) : String := "F" ++ toString r.val

/-- The constant names LDC takes after `#` (R308). -/
def constName (k : Fin 16) : String :=
  match k.val with
  | 0 => "ZERO"
  | 1 => "SCALE"
  | 2 => "E"
  | 3 => "PI"
  | 4 => "LN2"
  | 5 => "LOG2E"
  | 6 => "MIN"
  | 7 => "MAX"
  | n => toString n

/-- `MNEMONIC Frd, Frs1, Frs2` (R308). -/
def asmRR (m : String) (rd rs1 rs2 : Reg) : String :=
  m ++ " " ++ regName rd ++ ", " ++ regName rs1 ++ ", " ++ regName rs2

/-- `MNEMONIC Frd, Frs1` (R308). -/
def asmRU (m : String) (rd rs1 : Reg) : String := m ++ " " ++ regName rd ++ ", " ++ regName rs1

/-- The assembler text of a command, LDC's constant by name (R308). -/
def assembly : Instr → String
  | .abs rd rs1 => asmRU "ABS" rd rs1
  | .avg rd rs1 rs2 => asmRR "AVG" rd rs1 rs2
  | .gavg rd rs1 rs2 => asmRR "GAVG" rd rs1 rs2
  | .mul rd rs1 rs2 => asmRR "MUL" rd rs1 rs2
  | .div rd rs1 rs2 => asmRR "DIV" rd rs1 rs2
  | .inv rd rs1 => asmRU "INV" rd rs1
  | .sqrt rd rs1 => asmRU "SQRT" rd rs1
  | .log2 rd rs1 => asmRU "LOG2" rd rs1
  | .ln rd rs1 => asmRU "LN" rd rs1
  | .exp2 rd rs1 => asmRU "EXP2" rd rs1
  | .exp rd rs1 => asmRU "EXP" rd rs1
  | .pow rd rs1 rs2 => asmRR "POW" rd rs1 rs2
  | .fromint rd rs1 => asmRU "FROMINT" rd rs1
  | .toint rd rs1 => asmRU "TOINT" rd rs1
  | .ldc rd k => "LDC " ++ regName rd ++ ", #" ++ constName k

end Sys2Proof.Machine
end

