-- ==== Sys2Proof/Safety.lean ====
section
/-! DEFINITION. What a safe run is, in the terms the statements use: the error record means what R1001 and R106 say, and every
access the host still has to make is one the unit answers. -/

namespace Sys2Proof.Machine

/-- R1001's column "raised by": the commands that may end with an error of this kind, under the parameters. IllegalCommand is the
decoder's alone. -/
def canRaise (c : Config) : ErrorKind → Instr → Bool
  | .overflow, .abs _ _ | .overflow, .gavg _ _ _ | .overflow, .mul _ _ _ | .overflow, .div _ _ _ | .overflow, .inv _ _ => true
  | .overflow, .exp2 _ _ | .overflow, .exp _ _ | .overflow, .pow _ _ _ | .overflow, .fromint _ _ => true
  | .divisionByZero, .div _ _ _ | .divisionByZero, .inv _ _ => true
  | .negativeInput, .sqrt _ _ => true
  | .nonPositiveInput, .log2 _ _ | .nonPositiveInput, .ln _ _ => true
  | .domain, .gavg _ _ _ => decide (c.gavgSignError = .domain)
  | _, _ => false

/-- CODE and ECMD agree (R105, R106, R1001): CODE is 0; or CODE is 6 and ECMD is a word that decodes to no command; or ECMD is the
word of a command that may raise the error CODE names. -/
def ErrorRecordOk (s : State) : Prop :=
  s.code = 0 ∨
  (s.code = 6 ∧ ∃ e, decode s.ecmd = .error e) ∨
  (∃ i e, decode s.ecmd = .ok i ∧ s.code = ErrorKind.code e ∧ canRaise s.cfg e i = true)

/-- An event the unit answers: R204 allows the access; reset always. -/
def BusEvent.allowed (s : State) : BusEvent → Bool
  | .read width addr => (s.accessOffset width addr).isSome
  | .write width addr _ => (s.accessOffset width addr).isSome
  | .reset _ => true

/-- A state no run of which stops: every pending access is allowed. -/
def NeverStops (s : State) : Prop :=
  ∀ ev ∈ s.bus, BusEvent.allowed s ev = true

/-- The states a run of steps leads to. -/
inductive Reaches : State → State → Prop where
  | refl (s : State) : Reaches s s
  | next {s t u : State} : Reaches s t → step t = .next u → Reaches s u

end Sys2Proof.Machine
end

