-- ==== Sys2Proof/Laws/State.lean ====
section
/-! SUPPORT. One lemma per field per update of State, so that no proof unfolds a record update. -/

namespace Sys2Proof.Machine

/-! ### complete -/

@[simp] theorem State.F_complete (s : State) (rd : Reg) (v : Int) : (s.complete rd v).F = s.F.set rd.val (toRaw v) := rfl
@[simp] theorem State.written_complete (s : State) (rd : Reg) (v : Int) : (s.complete rd v).written = s.written.set rd.val (Vector.replicate 4 true) := rfl
@[simp] theorem State.code_complete (s : State) (rd : Reg) (v : Int) : (s.complete rd v).code = 0 := rfl
@[simp] theorem State.err_complete (s : State) (rd : Reg) (v : Int) : (s.complete rd v).err = s.err := rfl
@[simp] theorem State.ecmd_complete (s : State) (rd : Reg) (v : Int) : (s.complete rd v).ecmd = s.ecmd := rfl
@[simp] theorem State.cfg_complete (s : State) (rd : Reg) (v : Int) : (s.complete rd v).cfg = s.cfg := rfl
@[simp] theorem State.bus_complete (s : State) (rd : Reg) (v : Int) : (s.complete rd v).bus = s.bus := rfl
@[simp] theorem State.readData_complete (s : State) (rd : Reg) (v : Int) : (s.complete rd v).readData = s.readData := rfl
@[simp] theorem State.resets_complete (s : State) (rd : Reg) (v : Int) : (s.complete rd v).resets = s.resets := rfl

/-! ### raiseError -/

@[simp] theorem State.F_raiseError (s : State) (e : ErrorKind) (w : Word) : (s.raiseError e w).F = s.F := rfl
@[simp] theorem State.written_raiseError (s : State) (e : ErrorKind) (w : Word) : (s.raiseError e w).written = s.written := rfl
@[simp] theorem State.code_raiseError (s : State) (e : ErrorKind) (w : Word) : (s.raiseError e w).code = ErrorKind.code e := rfl
@[simp] theorem State.err_raiseError (s : State) (e : ErrorKind) (w : Word) : (s.raiseError e w).err = true := rfl
@[simp] theorem State.ecmd_raiseError (s : State) (e : ErrorKind) (w : Word) : (s.raiseError e w).ecmd = w := rfl
@[simp] theorem State.cfg_raiseError (s : State) (e : ErrorKind) (w : Word) : (s.raiseError e w).cfg = s.cfg := rfl
@[simp] theorem State.bus_raiseError (s : State) (e : ErrorKind) (w : Word) : (s.raiseError e w).bus = s.bus := rfl
@[simp] theorem State.readData_raiseError (s : State) (e : ErrorKind) (w : Word) : (s.raiseError e w).readData = s.readData := rfl
@[simp] theorem State.resets_raiseError (s : State) (e : ErrorKind) (w : Word) : (s.raiseError e w).resets = s.resets := rfl

/-! ### writeRegWord -/

@[simp] theorem State.F_writeRegWord (s : State) (r : Reg) (j : Fin 4) (v : Word) : (s.writeRegWord r j v).F = s.F.set r.val (setRegWord (s.reg r) j.val v) := rfl
@[simp] theorem State.written_writeRegWord (s : State) (r : Reg) (j : Fin 4) (v : Word) : (s.writeRegWord r j v).written = s.written.set r.val (s.written[r.val].set j.val true) := rfl
@[simp] theorem State.code_writeRegWord (s : State) (r : Reg) (j : Fin 4) (v : Word) : (s.writeRegWord r j v).code = s.code := rfl
@[simp] theorem State.err_writeRegWord (s : State) (r : Reg) (j : Fin 4) (v : Word) : (s.writeRegWord r j v).err = s.err := rfl
@[simp] theorem State.ecmd_writeRegWord (s : State) (r : Reg) (j : Fin 4) (v : Word) : (s.writeRegWord r j v).ecmd = s.ecmd := rfl
@[simp] theorem State.cfg_writeRegWord (s : State) (r : Reg) (j : Fin 4) (v : Word) : (s.writeRegWord r j v).cfg = s.cfg := rfl
@[simp] theorem State.bus_writeRegWord (s : State) (r : Reg) (j : Fin 4) (v : Word) : (s.writeRegWord r j v).bus = s.bus := rfl
@[simp] theorem State.readData_writeRegWord (s : State) (r : Reg) (j : Fin 4) (v : Word) : (s.writeRegWord r j v).readData = s.readData := rfl
@[simp] theorem State.resets_writeRegWord (s : State) (r : Reg) (j : Fin 4) (v : Word) : (s.writeRegWord r j v).resets = s.resets := rfl

/-! ### resetUnit -/

@[simp] theorem State.F_resetUnit (s : State) : (s.resetUnit).F = s.resetRegisters := rfl
@[simp] theorem State.written_resetUnit (s : State) : (s.resetUnit).written = nothingWritten := rfl
@[simp] theorem State.code_resetUnit (s : State) : (s.resetUnit).code = 0 := rfl
@[simp] theorem State.err_resetUnit (s : State) : (s.resetUnit).err = false := rfl
@[simp] theorem State.ecmd_resetUnit (s : State) : (s.resetUnit).ecmd = 0 := rfl
@[simp] theorem State.cfg_resetUnit (s : State) : (s.resetUnit).cfg = s.cfg := rfl
@[simp] theorem State.bus_resetUnit (s : State) : (s.resetUnit).bus = s.bus := rfl
@[simp] theorem State.readData_resetUnit (s : State) : (s.resetUnit).readData = s.readData := rfl
@[simp] theorem State.resets_resetUnit (s : State) : (s.resetUnit).resets = s.resets + 1 := rfl

/-! ### withFetchWord -/

@[simp] theorem State.F_withFetchWord (s : State) (nbits w : Nat) : (s.withFetchWord nbits w).F = s.F := rfl
@[simp] theorem State.written_withFetchWord (s : State) (nbits w : Nat) : (s.withFetchWord nbits w).written = s.written := rfl
@[simp] theorem State.code_withFetchWord (s : State) (nbits w : Nat) : (s.withFetchWord nbits w).code = s.code := rfl
@[simp] theorem State.err_withFetchWord (s : State) (nbits w : Nat) : (s.withFetchWord nbits w).err = s.err := rfl
@[simp] theorem State.ecmd_withFetchWord (s : State) (nbits w : Nat) : (s.withFetchWord nbits w).ecmd = s.ecmd := rfl
@[simp] theorem State.cfg_withFetchWord (s : State) (nbits w : Nat) : (s.withFetchWord nbits w).cfg = s.cfg := rfl
@[simp] theorem State.bus_withFetchWord (s : State) (nbits w : Nat) : (s.withFetchWord nbits w).bus = cmdWrite s (tableWord nbits w) :: s.bus := rfl
@[simp] theorem State.readData_withFetchWord (s : State) (nbits w : Nat) : (s.withFetchWord nbits w).readData = s.readData := rfl
@[simp] theorem State.resets_withFetchWord (s : State) (nbits w : Nat) : (s.withFetchWord nbits w).resets = s.resets := rfl

/-! ### writeStatus -/

@[simp] theorem State.F_writeStatus (s : State) (v : Word) : (s.writeStatus v).F = s.F := by
  unfold State.writeStatus; split <;> rfl
@[simp] theorem State.written_writeStatus (s : State) (v : Word) : (s.writeStatus v).written = s.written := by
  unfold State.writeStatus; split <;> rfl
@[simp] theorem State.code_writeStatus (s : State) (v : Word) : (s.writeStatus v).code = s.code := by
  unfold State.writeStatus; split <;> rfl
@[simp] theorem State.err_writeStatus (s : State) (v : Word) :
    (s.writeStatus v).err = if v.getLsbD 8 then false else s.err := by
  unfold State.writeStatus; split <;> rfl
@[simp] theorem State.ecmd_writeStatus (s : State) (v : Word) : (s.writeStatus v).ecmd = s.ecmd := by
  unfold State.writeStatus; split <;> rfl
@[simp] theorem State.cfg_writeStatus (s : State) (v : Word) : (s.writeStatus v).cfg = s.cfg := by
  unfold State.writeStatus; split <;> rfl
@[simp] theorem State.bus_writeStatus (s : State) (v : Word) : (s.writeStatus v).bus = s.bus := by
  unfold State.writeStatus; split <;> rfl
@[simp] theorem State.readData_writeStatus (s : State) (v : Word) : (s.writeStatus v).readData = s.readData := by
  unfold State.writeStatus; split <;> rfl
@[simp] theorem State.resets_writeStatus (s : State) (v : Word) : (s.writeStatus v).resets = s.resets := by
  unfold State.writeStatus; split <;> rfl

/-! ### finish -/

@[simp] theorem State.finish_ok (s : State) (w : Word) (rd : Reg) (v : Int) : s.finish w rd (.ok v) = s.complete rd v := rfl
@[simp] theorem State.finish_error (s : State) (w : Word) (rd : Reg) (e : ErrorKind) :
    s.finish w rd (.error e) = s.raiseError e w := rfl
@[simp] theorem State.cfg_finish (s : State) (w : Word) (rd : Reg) (r : CmdResult) : (s.finish w rd r).cfg = s.cfg := by
  cases r <;> rfl
@[simp] theorem State.bus_finish (s : State) (w : Word) (rd : Reg) (r : CmdResult) : (s.finish w rd r).bus = s.bus := by
  cases r <;> rfl
@[simp] theorem State.readData_finish (s : State) (w : Word) (rd : Reg) (r : CmdResult) : (s.finish w rd r).readData = s.readData := by
  cases r <;> rfl
@[simp] theorem State.resets_finish (s : State) (w : Word) (rd : Reg) (r : CmdResult) : (s.finish w rd r).resets = s.resets := by
  cases r <;> rfl

end Sys2Proof.Machine
end

