-- ==== Sys2Proof/Laws/Arith.lean ====
section
/-! SUPPORT. What the helper functions of R13 to R16 compute. -/

namespace Sys2Proof.Machine

theorem sval_range (v : Raw) : MIN ≤ sval v ∧ sval v ≤ MAX := by
  have h1 := BitVec.le_toInt v
  have h2 := BitVec.toInt_lt (x := v)
  simp only [MIN, MAX, sval]
  omega

theorem sval_toRaw {v : Int} (h1 : MIN ≤ v) (h2 : v ≤ MAX) : sval (toRaw v) = v := by
  simp only [MIN, MAX] at h1 h2
  simp only [sval, toRaw, BitVec.toInt_ofInt]
  exact Int.bmod_eq_of_le (by norm_num; omega) (by norm_num; omega)

theorem toRaw_sval (v : Raw) : toRaw (sval v) = v := by simp [toRaw, sval]

theorem checkRange_eq_ok {v r : Int} : checkRange v = .ok r ↔ (MIN ≤ v ∧ v ≤ MAX) ∧ r = v := by
  unfold checkRange; split <;> rename_i h <;> simp [h, eq_comm]

theorem checkRange_of_fits {v : Int} (h : MIN ≤ v ∧ v ≤ MAX) : checkRange v = .ok v := if_pos h

theorem checkRange_of_not_fits {v : Int} (h : ¬ (MIN ≤ v ∧ v ≤ MAX)) : checkRange v = .error .overflow := if_neg h

/-- The bit-by-bit root keeps its invariant: the root found so far fits, and one unit of the bits to go does not. -/
theorem isqrtBits_spec (k : Nat) : ∀ n r : Nat, r * r ≤ n → n < (r + 2 ^ k) * (r + 2 ^ k) →
    isqrtBits k n r * isqrtBits k n r ≤ n ∧ n < (isqrtBits k n r + 1) * (isqrtBits k n r + 1) := by
  induction k with
  | zero => intro n r h1 h2; simpa [isqrtBits] using ⟨h1, h2⟩
  | succ k ih =>
    intro n r h1 h2
    have hp : r + 2 ^ (k + 1) = r + 2 ^ k + 2 ^ k := by rw [pow_succ]; omega
    rw [hp] at h2
    rw [isqrtBits]
    split
    · exact ih n _ ‹_› h2
    · exact ih n r h1 (by omega)

/-- `isqrt(n)` is the largest r with r·r ≤ n (R15). -/
theorem isqrt_spec (n : Nat) : isqrt n * isqrt n ≤ n ∧ n < (isqrt n + 1) * (isqrt n + 1) := by
  refine isqrtBits_spec _ n 0 (Nat.zero_le _) ?_
  have h := Nat.lt_log2_self (n := n)
  rw [Nat.zero_add, ← pow_add]
  exact lt_of_lt_of_le h (Nat.pow_le_pow_right (by decide) (by omega))

/-- The root is the only number between. -/
theorem isqrt_unique {n r : Nat} (h1 : r * r ≤ n) (h2 : n < (r + 1) * (r + 1)) : isqrt n = r := by
  obtain ⟨g1, g2⟩ := isqrt_spec n
  have a : isqrt n < r + 1 := by
    by_contra hc
    have := Nat.mul_le_mul (not_lt.mp hc) (not_lt.mp hc)
    omega
  have b : r < isqrt n + 1 := by
    by_contra hc
    have := Nat.mul_le_mul (not_lt.mp hc) (not_lt.mp hc)
    omega
  omega

/-- `msb(n)` is the largest k with 2^k ≤ n (R15). -/
theorem msb_spec {n : Nat} (h : 0 < n) : 2 ^ msb n ≤ n ∧ n < 2 ^ (msb n + 1) :=
  ⟨Nat.log2_self_le (by omega), Nat.lt_log2_self⟩

theorem msb_unique {n k : Nat} (h1 : 2 ^ k ≤ n) (h2 : n < 2 ^ (k + 1)) : msb n = k := by
  have h0 : 0 < n := lt_of_lt_of_le (by positivity) h1
  obtain ⟨g1, g2⟩ := msb_spec h0
  have a := (Nat.pow_lt_pow_iff_right (a := 2) (by decide)).mp (lt_of_le_of_lt g1 h2)
  have b := (Nat.pow_lt_pow_iff_right (a := 2) (by decide)).mp (lt_of_le_of_lt h1 g2)
  omega

end Sys2Proof.Machine
end

