-- ==== Sys2Proof/Laws/Decode.lean ====
section
/-! SUPPORT. The fields of an encoded word, and what the decoder's parts answer. -/

namespace Sys2Proof

/-- The value of an encoded word: the four fields at their places (R304). -/
theorem toNat_encodeFields (o : Opcode) (rd s1 s2 : Fin 16) :
    (encodeFields o rd s1 s2).toNat = 2 ^ 24 * o.code + 2 ^ 20 * rd.val + 2 ^ 16 * s1.val + 2 ^ 12 * s2.val := by
  have h : o.code < 2 ^ 8 := by cases o <;> decide
  simp only [encodeFields, BitVec.toNat_ofNat]
  omega

theorem opField_encodeFields (o : Opcode) (rd s1 s2 : Fin 16) : bitField (encodeFields o rd s1 s2) 24 8 = o.code := by
  have h : o.code < 2 ^ 8 := by cases o <;> decide
  simp only [bitField, toNat_encodeFields]
  omega

theorem resField_encodeFields (o : Opcode) (rd s1 s2 : Fin 16) : bitField (encodeFields o rd s1 s2) 0 12 = 0 := by
  simp only [bitField, toNat_encodeFields]
  omega

theorem rdField_encodeFields (o : Opcode) (rd s1 s2 : Fin 16) : nibble (encodeFields o rd s1 s2) 20 = rd := by
  ext
  simp only [nibble, bitField, toNat_encodeFields]
  omega

theorem rs1Field_encodeFields (o : Opcode) (rd s1 s2 : Fin 16) : nibble (encodeFields o rd s1 s2) 16 = s1 := by
  ext
  simp only [nibble, bitField, toNat_encodeFields]
  omega

theorem rs2Field_encodeFields (o : Opcode) (rd s1 s2 : Fin 16) : nibble (encodeFields o rd s1 s2) 12 = s2 := by
  ext
  simp only [nibble, bitField, toNat_encodeFields]
  omega

@[simp] theorem ofCode_code (o : Opcode) : Opcode.ofCode o.code = some o := by cases o <;> rfl

/-- Only an opcode's own OP value selects it. -/
theorem code_of_ofCode {n : Nat} {o : Opcode} (h : Opcode.ofCode n = some o) : o.code = n := by
  unfold Opcode.ofCode at h
  split at h <;> simp_all <;> subst h <;> rfl

/-- Decoding an encoded word comes down to the field checks of its format. -/
theorem decode_encodeFields (o : Opcode) (rd s1 s2 : Fin 16) :
    decode (encodeFields o rd s1 s2) = decodeFields o rd s1 s2 := by
  simp only [decode, resField_encodeFields, opField_encodeFields, ofCode_code, rdField_encodeFields, rs1Field_encodeFields,
    rs2Field_encodeFields, ne_eq, not_true_eq_false, if_false]

/-- A number below 2^32 whose low 12 bits are 0 is the sum of its fields. -/
theorem sum_of_fields (n : Nat) (hn : n < 4294967296) (h : n % 4096 = 0) :
    16777216 * (n / 16777216 % 256) + 1048576 * (n / 1048576 % 16) + 65536 * (n / 65536 % 16) + 4096 * (n / 4096 % 16) = n := by
  omega

/-- A word whose RES is 0 is the encoding of its own fields. -/
theorem encodeFields_of_fields {w : Word} {o : Opcode} (hop : o.code = bitField w 24 8) (hres : bitField w 0 12 = 0) :
    encodeFields o (nibble w 20) (nibble w 16) (nibble w 12) = w := by
  apply BitVec.eq_of_toNat_eq
  have h : w.toNat % 4096 = 0 := by simpa [bitField] using hres
  rw [toNat_encodeFields, hop]
  exact sum_of_fields w.toNat w.isLt h

/-- A number below 2^32 is the sum of its four bytes. -/
theorem sum_of_bytes (n : Nat) (hn : n < 4294967296) :
    (16777216 * (n / 16777216 % 256 % 256) + 65536 * (n / 65536 % 256 % 256) + 256 * (n / 256 % 256 % 256) + n % 256 % 256)
      % 4294967296 = n := by
  omega

/-- Reading a word back from its bytes (R203). -/
theorem wordOfBytes_bytesOfWord (w : Word) :
    wordOfBytes (BitVec.ofNat 8 (bitField w 24 8)) (BitVec.ofNat 8 (bitField w 16 8)) (BitVec.ofNat 8 (bitField w 8 8))
      (BitVec.ofNat 8 (bitField w 0 8)) = w := by
  apply BitVec.eq_of_toNat_eq
  have h := sum_of_bytes w.toNat w.isLt
  simpa [wordOfBytes, bitField, BitVec.toNat_ofNat] using h

/-- The decoder on four bytes is the decoder on the word they spell. -/
theorem decodeBytes_four (b0 b1 b2 b3 : Byte) :
    decodeBytes [b0, b1, b2, b3] = (decode (wordOfBytes b0 b1 b2 b3)).map (fun i => (i, [])) := by
  rw [decodeBytes]
  cases decode (wordOfBytes b0 b1 b2 b3) <;> rfl

/-- The decoder on a word's bytes is the decoder on the word. -/
theorem decodeBytes_bytesOfWord (w : Word) :
    decodeBytes (bytesOfWord w) = (decode w).map (fun i => (i, [])) :=
  (decodeBytes_four _ _ _ _).trans (by rw [wordOfBytes_bytesOfWord])

end Sys2Proof
end

