-- ==== Sys2Proof/Laws/Ops.lean ====
section
/-! SUPPORT. One lemma per shared operation that says all it can do, and what `exec`, `serve` and `step` come down to. -/

namespace Sys2Proof.Machine

/-! ### Registers -/

theorem reg_complete_self (s : State) (rd : Reg) (v : Int) : (s.complete rd v).reg rd = toRaw v := by
  simp [State.reg]

theorem reg_complete_ne (s : State) {rd q : Reg} (v : Int) (h : q ≠ rd) : (s.complete rd v).reg q = s.reg q := by
  simp only [State.reg, State.F_complete]
  exact Vector.getElem_set_ne _ _ (fun hc => h (Fin.ext hc.symm))

theorem written_complete_self (s : State) (rd : Reg) (v : Int) :
    (s.complete rd v).written[rd.val] = Vector.replicate 4 true := by
  simp

theorem written_complete_ne (s : State) {rd q : Reg} (v : Int) (h : q ≠ rd) :
    (s.complete rd v).written[q.val] = s.written[q.val] := by
  simp only [State.written_complete]
  exact Vector.getElem_set_ne _ _ (fun hc => h (Fin.ext hc.symm))

theorem reg_writeRegWord_self (s : State) (r : Reg) (j : Fin 4) (v : Word) :
    (s.writeRegWord r j v).reg r = setRegWord (s.reg r) j.val v := by
  simp only [State.reg, State.F_writeRegWord]
  exact Vector.getElem_set_self _

theorem reg_writeRegWord_ne (s : State) {r q : Reg} (j : Fin 4) (v : Word) (h : q ≠ r) :
    (s.writeRegWord r j v).reg q = s.reg q := by
  simp only [State.reg, State.F_writeRegWord]
  exact Vector.getElem_set_ne _ _ (fun hc => h (Fin.ext hc.symm))

/-- A word write marks exactly that word (R213). -/
theorem written_writeRegWord_word (s : State) (r q : Reg) (j l : Fin 4) (v : Word) :
    (s.writeRegWord r j v).written[q.val][l.val] = if q = r ∧ l = j then true else s.written[q.val][l.val] := by
  simp only [State.written_writeRegWord, Vector.getElem_set, Fin.ext_iff]
  by_cases hq : q.val = r.val
  · by_cases hl : l.val = j.val
    · simp [hq, hl]
    · simp [hq, hl, Ne.symm hl]
  · simp [hq, Ne.symm hq]

/-- All four words of r are written (R104). -/
theorem allWritten_iff (s : State) (r : Reg) : s.allWritten r = true ↔ ∀ j : Fin 4, s.written[r.val][j.val] = true := by
  simp only [State.allWritten, Bool.and_eq_true, Fin.forall_fin_succ]
  simp [and_assoc]

/-- The condition of R104: a command word has an `UninitRead` register exactly when it decodes to a command one of whose sources
has an unwritten word. -/
theorem uninitRead_isSome_iff (s : State) (w : Word) :
    (s.uninitRead w).isSome = true ↔ ∃ i, decode w = .ok i ∧ ∃ r ∈ i.sources, s.allWritten r = false := by
  unfold State.uninitRead
  cases decode w <;> simp [List.find?_isSome]

/-- The register R104 names is a source of the command with an unwritten word. -/
theorem uninitRead_some {s : State} {w : Word} {r : Reg} (h : s.uninitRead w = some r) :
    ∃ i, decode w = .ok i ∧ r ∈ i.sources ∧ s.allWritten r = false := by
  unfold State.uninitRead at h
  split at h
  · rename_i i hi
    exact ⟨i, hi, List.mem_of_find?_eq_some h, by simpa using List.find?_some h⟩
  · cases h

/-- The bits of a register after one of its words is replaced (R206). -/
theorem getLsbD_setRegWord (old : Raw) (j : Nat) (hj : j < 4) (v : Word) (n : Nat) (hn : n < 128) :
    (setRegWord old j v).getLsbD n =
      if 96 - 32 * j ≤ n ∧ n < 128 - 32 * j then v.getLsbD (n - (96 - 32 * j)) else old.getLsbD n := by
  have hones : ∀ m : Nat, (0xFFFFFFFF#128).getLsbD m = decide (m < 32) := by
    intro m
    have : (0xFFFFFFFF#128) = BitVec.setWidth 128 (BitVec.allOnes 32) := by decide
    rw [this]
    simp only [BitVec.getLsbD_setWidth, BitVec.getLsbD_allOnes]
    by_cases h : m < 32
    · simp [h]; omega
    · simp [h]
  simp only [setRegWord, BitVec.getLsbD_or, BitVec.getLsbD_and, BitVec.getLsbD_not, BitVec.getLsbD_shiftLeft, hones,
    BitVec.getLsbD_setWidth]
  by_cases h1 : n < 96 - 32 * j
  · simp [h1, hn, show ¬ (96 - 32 * j ≤ n) by omega]
  · by_cases h2 : n < 128 - 32 * j
    · have h3 : n - (96 - 32 * j) < 32 := by omega
      have h4 : n - (96 - 32 * j) < 128 := by omega
      simp [h1, hn, h2, h3, h4, show 96 - 32 * j ≤ n by omega]
    · have h3 : ¬ (n - (96 - 32 * j) < 32) := by omega
      have h4 : v.getLsbD (n - (96 - 32 * j)) = false := BitVec.getLsbD_of_ge _ _ (by omega)
      simp [h1, hn, h2, h3, h4]

/-! ### Commands -/

/-- The outcome of an instruction rule: a function of the source patterns and the parameters alone (R310, R112). -/
def outcome (c : Config) (i : Instr) (f : Reg → Raw) : CmdResult :=
  match i with
  | .abs _ a => absRule (sval (f a))
  | .avg _ a b => avgRule (sval (f a)) (sval (f b))
  | .gavg _ a b => gavgRule c.gavgSignError (sval (f a)) (sval (f b))
  | .mul _ a b => mulRule (sval (f a)) (sval (f b))
  | .div _ a b => divRule (sval (f a)) (sval (f b))
  | .inv _ a => invRule (sval (f a))
  | .sqrt _ a => sqrtRule (sval (f a))
  | .log2 _ a => log2Rule (sval (f a))
  | .ln _ a => lnRule (sval (f a))
  | .exp2 _ a => exp2Rule (sval (f a))
  | .exp _ a => expRule (sval (f a))
  | .pow _ a b => powRule (sval (f a)) (uval (f b))
  | .fromint _ a => fromIntRule (sval (f a))
  | .toint _ a => toIntRule c.toIntRounding (sval (f a))
  | .ldc _ k => ldcRule k

/-- Everything a command does: it always answers the next state `finish` gives. -/
theorem exec_eq (i : Instr) (s : State) : exec i s = .next (s.finish (encode i) i.dest (outcome s.cfg i s.reg)) := by
  cases i <;> rfl

/-- A command that answers a next state answers the one of `finish`. -/
theorem exec_next {i : Instr} {s t : State} (h : exec i s = .next t) :
    t = s.finish (encode i) i.dest (outcome s.cfg i s.reg) := by
  rw [exec_eq] at h
  injection h with h
  exact h.symm

/-! ### Serving the bus -/

theorem step_of_idle {s : State} (h : s.bus = []) : step s = .next s := by simp [step, h]

theorem step_of_event {s : State} {ev : BusEvent} {rest : List BusEvent} (h : s.bus = ev :: rest) :
    step s = serve ev { s with bus := rest } := by simp [step, h]

theorem accessOffset_eq_some {s : State} {width addr off : Nat} :
    s.accessOffset width addr = some off ↔
      width = 32 ∧ addr = s.cfg.fxuBase + off ∧ off % 4 = 0 ∧ off < 0x200 := by
  unfold State.accessOffset
  split
  · simp only [Option.some.injEq]; omega
  · simp only [reduceCtorEq, false_iff]; omega

theorem accessOffset_window (s : State) {off : Nat} (h1 : off % 4 = 0) (h2 : off < 0x200) :
    s.accessOffset 32 (s.cfg.fxuBase + off) = some off :=
  accessOffset_eq_some.mpr ⟨rfl, rfl, h1, h2⟩

theorem accessOffset_bus (s : State) (rest : List BusEvent) (width addr : Nat) :
    ({ s with bus := rest } : State).accessOffset width addr = s.accessOffset width addr := rfl

theorem serve_cmdWrite (s : State) (w : Word) : serve (cmdWrite s w) s = execute w s := by
  have h := accessOffset_window s (off := offCMD) (by decide) (by decide)
  simp only [serve, cmdWrite, h, hostWrite]
  simp [offCMD]

/-- The step after `withFetchWord` is the word's command. -/
theorem step_withFetchWord (s : State) (nbits w : Nat) :
    step (s.withFetchWord nbits w) = execute (tableWord nbits w) s := by
  rw [step_of_event (State.bus_withFetchWord s nbits w)]
  exact serve_cmdWrite s _

/-- Everything a step can do when it answers a next state. -/
theorem step_next {s t : State} (h : step s = .next t) :
    (s.bus = [] ∧ t = s) ∨
    ∃ ev rest, s.bus = ev :: rest ∧
      ((∃ width addr off, ev = .read width addr ∧ s.accessOffset width addr = some off ∧
          t = { s with bus := rest, readData := some (({ s with bus := rest } : State).hostRead off) }) ∨
        (∃ width addr data off, ev = .write width addr data ∧ s.accessOffset width addr = some off ∧
          hostWrite off data { s with bus := rest } = .next t) ∨
        (∃ o, ev = .reset o ∧ t = ({ s with bus := rest } : State).resetUnit)) := by
  cases hb : s.bus with
  | nil =>
    rw [step_of_idle hb] at h
    exact .inl ⟨rfl, by injection h with h; exact h.symm⟩
  | cons ev rest =>
    rw [step_of_event hb] at h
    refine .inr ⟨ev, rest, rfl, ?_⟩
    cases ev with
    | read width addr =>
      simp only [serve, accessOffset_bus] at h
      cases ho : s.accessOffset width addr with
      | none => rw [ho] at h; cases h
      | some off =>
        rw [ho] at h
        exact .inl ⟨width, addr, off, rfl, ho, by injection h with h; exact h.symm⟩
    | write width addr data =>
      simp only [serve, accessOffset_bus] at h
      cases ho : s.accessOffset width addr with
      | none => rw [ho] at h; cases h
      | some off => rw [ho] at h; exact .inr (.inl ⟨width, addr, data, off, rfl, ho, h⟩)
    | reset o => exact .inr (.inr ⟨o, rfl, by injection h with h; exact h.symm⟩)

/-- Everything a host write can do when it answers a next state. -/
theorem hostWrite_next {off : Nat} {v : Word} {s t : State} (h : hostWrite off v s = .next t) :
    (off < 0x100 ∧ t = s.writeRegWord (regOfOffset off) (wordOfOffset off) v) ∨
    (off = offCMD ∧ (∃ e, decode v = .error e) ∧ t = s.raiseError .illegalCommand v) ∨
    (off = offCMD ∧ ∃ i, decode v = .ok i ∧ exec i s = .next t) ∨
    (off = offSTATUS ∧ t = s.writeStatus v) ∨ (offSTATUS < off ∧ t = s) ∨ (0x100 ≤ off ∧ t = s) := by
  unfold hostWrite at h
  split at h
  · injection h with h; exact .inl ⟨‹_›, h.symm⟩
  split at h
  · unfold execute at h
    split at h
    · rename_i e he
      injection h with h; exact .inr (.inl ⟨‹_›, ⟨e, he⟩, h.symm⟩)
    · rename_i i hi
      exact .inr (.inr (.inl ⟨‹_›, i, hi, h⟩))
  split at h
  · injection h with h; exact .inr (.inr (.inr (.inl ⟨‹_›, h.symm⟩)))
  · injection h with h; exact .inr (.inr (.inr (.inr (.inr ⟨by omega, h.symm⟩))))

/-! ### Runs -/

/-- The one induction over runs: what holds at the start and is kept by every step holds of every state a run leads to. -/
theorem Reaches.invariant {P : State → Prop} (keep : ∀ s t, P s → step s = .next t → P t) {s t : State}
    (h : Reaches s t) (h0 : P s) : P t := by
  induction h with
  | refl => exact h0
  | next _ hst ih => exact keep _ _ ih hst

end Sys2Proof.Machine
end

