-- ==== Sys2Proof/Laws/PerInstr.lean ====
section
/-! SUPPORT. The per-instruction family EncodedFields: where an instruction's word carries its opcode and destination, that RES
is 0, and which field checks its decoding comes down to (R301, R302, R304). -/

namespace Sys2Proof.Laws.EncodedFields

/-- RES is 0, RD is the destination, and decoding the word is the field check of some opcode that the word's OP selects. -/
def Statement (i : Instr) : Prop :=
  bitField (encode i) 0 12 = 0 ∧ nibble (encode i) 20 = i.dest ∧
    ∃ o s1 s2, Opcode.ofCode (bitField (encode i) 24 8) = some o ∧ o.build i.dest s1 s2 = i ∧
      decode (encode i) = decodeFields o i.dest s1 s2

/-- Every constructor's lemma: the encoding is `encodeFields` of an opcode whose `build` gives the instruction. -/
theorem of_encodeFields {i : Instr} (o : Opcode) (s1 s2 : Fin 16) (he : encode i = encodeFields o i.dest s1 s2)
    (hb : o.build i.dest s1 s2 = i) : Statement i :=
  ⟨by rw [he, resField_encodeFields], by rw [he, rdField_encodeFields],
    o, s1, s2, by rw [he, opField_encodeFields, ofCode_code], hb, by rw [he, decode_encodeFields]⟩

theorem abs (rd rs1 : Reg) : Statement (.abs rd rs1) := of_encodeFields .abs rs1 0 rfl rfl
theorem avg (rd rs1 rs2 : Reg) : Statement (.avg rd rs1 rs2) := of_encodeFields .avg rs1 rs2 rfl rfl
theorem gavg (rd rs1 rs2 : Reg) : Statement (.gavg rd rs1 rs2) := of_encodeFields .gavg rs1 rs2 rfl rfl
theorem mul (rd rs1 rs2 : Reg) : Statement (.mul rd rs1 rs2) := of_encodeFields .mul rs1 rs2 rfl rfl
theorem div (rd rs1 rs2 : Reg) : Statement (.div rd rs1 rs2) := of_encodeFields .div rs1 rs2 rfl rfl
theorem inv (rd rs1 : Reg) : Statement (.inv rd rs1) := of_encodeFields .inv rs1 0 rfl rfl
theorem sqrt (rd rs1 : Reg) : Statement (.sqrt rd rs1) := of_encodeFields .sqrt rs1 0 rfl rfl
theorem log2 (rd rs1 : Reg) : Statement (.log2 rd rs1) := of_encodeFields .log2 rs1 0 rfl rfl
theorem ln (rd rs1 : Reg) : Statement (.ln rd rs1) := of_encodeFields .ln rs1 0 rfl rfl
theorem exp2 (rd rs1 : Reg) : Statement (.exp2 rd rs1) := of_encodeFields .exp2 rs1 0 rfl rfl
theorem exp (rd rs1 : Reg) : Statement (.exp rd rs1) := of_encodeFields .exp rs1 0 rfl rfl
theorem pow (rd rs1 rs2 : Reg) : Statement (.pow rd rs1 rs2) := of_encodeFields .pow rs1 rs2 rfl rfl
theorem fromint (rd rs1 : Reg) : Statement (.fromint rd rs1) := of_encodeFields .fromint rs1 0 rfl rfl
theorem toint (rd rs1 : Reg) : Statement (.toint rd rs1) := of_encodeFields .toint rs1 0 rfl rfl
theorem ldc (rd : Reg) (k : Fin 16) : Statement (.ldc rd k) := of_encodeFields .ldc k 0 rfl rfl

end Sys2Proof.Laws.EncodedFields
end

