-- ==== Sys2Proof/Certificates/Slice0/Obligations.lean ====
section
/-! DEFINITION. The statements for the provers. The namespace Spec restates the spec's own formulas (word layout, recurrences,
what a completed and a failed command write) without the model's meanings, so that a statement compares the two.

A command reads a source register as it stands, whether or not the host or a command has written it since reset; R104's
`UninitRead` ends the run of a program and does not stop the unit (log entry 2, the model's reading). So no statement about a
command assumes that its sources are written. -/

namespace Sys2Proof.Spec

open Sys2Proof.Machine

/-- `word = OP<<24 | RD<<20 | RS1<<16 | RS2<<12` (R304). -/
def word (op : Nat) (rd s1 s2 : Fin 16) : Word :=
  BitVec.ofNat 32 op <<< 24 ||| BitVec.ofNat 32 rd.val <<< 20 ||| BitVec.ofNat 32 s1.val <<< 16 |||
    BitVec.ofNat 32 s2.val <<< 12

/-- What no command touches, the model's own fields (log entries 3, 5, 6 and 7): the parameters, the host's pending accesses, what the
host last read, and the count of resets. -/
def HostSideKept (s t : State) : Prop :=
  t.cfg = s.cfg ∧ t.bus = s.bus ∧ t.readData = s.readData ∧ t.resets = s.resets

/-- Everything R1005 says of a command with destination rd that returns v, and its frame: v is in [MIN, MAX] and rd holds it, all
of rd's words are written, CODE is 0; every other register, its marks, ERR and ECMD are as before. -/
def Completed (s t : State) (rd : Reg) (v : Int) : Prop :=
  -2 ^ 127 ≤ v ∧ v ≤ 2 ^ 127 - 1 ∧ (t.reg rd).toInt = v ∧
  (∀ q, q ≠ rd → t.reg q = s.reg q) ∧
  (∀ j : Fin 4, t.written[rd.val][j.val] = true) ∧
  (∀ q : Reg, q ≠ rd → t.written[q.val] = s.written[q.val]) ∧
  t.code = 0 ∧ t.err = s.err ∧ t.ecmd = s.ecmd ∧ HostSideKept s t

/-- Everything R1006 says of command word w that ends with error code c, and its frame: no data register changes, CODE is c, ERR is
1, ECMD is w. -/
def Failed (s t : State) (c : BitVec 4) (w : Word) : Prop :=
  (∀ q, t.reg q = s.reg q) ∧ t.written = s.written ∧
  t.code = c ∧ t.err = true ∧ t.ecmd = w ∧ HostSideKept s t

/-- The value of R701's pseudocode for x > 0, by its sequence of mantissas: k is the place of x's highest bit, m 0 the normalized
mantissa, and the j-th square emits the fractional bit of weight 2^(63 - j). -/
def Log2Value (x v : Int) : Prop :=
  ∃ (k : Nat) (m : Nat → Nat),
    (2 : Int) ^ k ≤ x ∧ x < 2 ^ (k + 1) ∧ (m 0 : Int) = x * 2 ^ (127 - k) ∧
    (∀ j < 64, m (j + 1) = m j * m j / 2 ^ (127 + m j * m j / 2 ^ 255)) ∧
    v = ((k : Int) - 64) * 2 ^ 64 + ∑ j ∈ Finset.range 64, ((m j * m j / 2 ^ 255 * 2 ^ (63 - j) : Nat) : Int)

/-- The accumulators of R731's loop for input x: r 0 is 1.0, and step k multiplies by EXP2_CONST[k] when x's fraction bit of weight
2^-k is set. -/
def Exp2Accumulators (x : Int) (r : Nat → Nat) : Prop :=
  r 0 = 2 ^ 127 ∧
  ∀ k, 1 ≤ k → k ≤ 64 →
    r k = if x / 2 ^ (64 - k) % 2 = 1 then r (k - 1) * exp2Const k / 2 ^ 128 else r (k - 1)

/-- The value of R731's pseudocode between its two thresholds. -/
def Exp2Value (x v : Int) : Prop :=
  ∃ r : Nat → Nat, Exp2Accumulators x r ∧ v = ((r 64 / 2 ^ (63 - x / 2 ^ 64).toNat : Nat) : Int)

/-- The chain of R801 for m = |x| at most 1.0: result mantissas r and bases t, one exponent bit a step. -/
def PowSmallChain (m n : Nat) (r t : Nat → Nat) : Prop :=
  r 0 = 2 ^ 128 ∧ t 0 = m * 2 ^ 63 ∧
  (∀ j, r (j + 1) = if n.testBit j then r j * t j / 2 ^ 127 else r j) ∧
  (∀ j, t (j + 1) = t j * t j / 2 ^ 127)

/-- The chain of R801 for m = |x| above 1.0: result mantissas r with exponents rs, bases t with exponents s, renormalised. -/
def PowLargeChain (m n : Nat) (r rs t s : Nat → Nat) : Prop :=
  (∃ k, 2 ^ k ≤ m ∧ m < 2 ^ (k + 1) ∧ t 0 = m * 2 ^ (127 - k) ∧ s 0 = k - 64) ∧
  r 0 = 2 ^ 128 ∧ rs 0 = 0 ∧
  (∀ j, n.testBit j = false → r (j + 1) = r j ∧ rs (j + 1) = rs j) ∧
  (∀ j, n.testBit j = true → r j * t j / 2 ^ 127 ≤ 2 ^ 128 →
    r (j + 1) = r j * t j / 2 ^ 127 ∧ rs (j + 1) = rs j + s j) ∧
  (∀ j, n.testBit j = true → 2 ^ 128 < r j * t j / 2 ^ 127 →
    r (j + 1) = r j * t j / 2 ^ 127 / 2 ∧ rs (j + 1) = rs j + s j + 1) ∧
  (∀ j, t j * t j / 2 ^ 127 < 2 ^ 128 → t (j + 1) = t j * t j / 2 ^ 127 ∧ s (j + 1) = 2 * s j) ∧
  (∀ j, 2 ^ 128 ≤ t j * t j / 2 ^ 127 → t (j + 1) = t j * t j / 2 ^ 127 / 2 ∧ s (j + 1) = 2 * s j + 1)

/-- The magnitude R801 computes before the sign is applied; `none` where it raises Overflow at places 1 and 2 of R805: a base power
of at least 2^64 with exponent bits left, or a result of at least 2^64. -/
def PowMagnitude (m n : Nat) (mag : Option Nat) : Prop :=
  (m ≤ 2 ^ 64 → ∃ r t, PowSmallChain m n r t ∧ mag = some (r 128 / 2 ^ 64)) ∧
  (2 ^ 64 < m → ∃ r rs t s, PowLargeChain m n r rs t s ∧
    (((∃ j, n / 2 ^ j ≠ 0 ∧ 64 ≤ s j) ∨ 64 ≤ rs 128) → mag = none) ∧
    ((∀ j, n / 2 ^ j ≠ 0 → s j < 64) → rs 128 < 64 → mag = some (r 128 / 2 ^ (64 - rs 128))))

/-- The OP values of R304 with their formats. -/
def opsRR : List Nat := [0x02, 0x03, 0x04, 0x05, 0x0C]

/-- See `opsRR`. -/
def opsRU : List Nat := [0x01, 0x06, 0x07, 0x08, 0x09, 0x0A, 0x0B, 0x10, 0x11]

/-- R305's four ways to be illegal, on the fields of R301. -/
def IllegalWord (w : Word) : Prop :=
  let op := (w.extractLsb' 24 8).toNat
  let s1 := w.extractLsb' 16 4
  let s2 := w.extractLsb' 12 4
  let res := w.extractLsb' 0 12
  (op ∉ opsRR ∧ op ∉ opsRU ∧ op ≠ 0x18) ∨ res ≠ 0 ∨ ((op ∈ opsRU ∨ op = 0x18) ∧ s2 ≠ 0) ∨ (op = 0x18 ∧ 8 ≤ s1.toNat)

end Sys2Proof.Spec

open Sys2Proof Sys2Proof.Machine Sys2Proof.Spec

/-! ### Encoding -/

/-- Words written out bit by bit from R301 and R304 decode to the commands they stand for (95_test_vectors.md L2.4, L3), and the
illegal words of L2.4 do not decode. -/
def Obligations.WrittenOutWordsDecode : Prop :=
  decode 0b00000001001000000000000000000000#32 = .ok (.abs 2 0) ∧
  decode 0b00000010001100010010000000000000#32 = .ok (.avg 3 1 2) ∧
  decode 0b00000011001000000001000000000000#32 = .ok (.gavg 2 0 1) ∧
  decode 0b00000100001100010010000000000000#32 = .ok (.mul 3 1 2) ∧
  decode 0b00000101001000000001000000000000#32 = .ok (.div 2 0 1) ∧
  decode 0b00000111001100100000000000000000#32 = .ok (.sqrt 3 2) ∧
  decode 0b00001000001000010000000000000000#32 = .ok (.log2 2 1) ∧
  decode 0b00001100010000110010000000000000#32 = .ok (.pow 4 3 2) ∧
  decode 0b00010001111111110000000000000000#32 = .ok (.toint 15 15) ∧
  decode 0b00011000000001110000000000000000#32 = .ok (.ldc 0 7) ∧
  decode 0b00011000000010000000000000000000#32 = .error .constIndex ∧
  decode 0b00000001001000000001000000000000#32 = .error .rs2InRU ∧
  decode 0b00000100001100010010000000000001#32 = .error .reservedBits ∧
  decode 0b00000000000000000000000000000000#32 = .error .unassignedOpcode

/-- Decoding the encoding of any well-formed instruction gives it back, every operand at every value (R304, R307). -/
def Obligations.DecodeOfEncode : Prop :=
  ∀ i : Instr, i.WellFormed = true → decode (encode i) = .ok i

/-- Each command word has one meaning: a word that decodes to an instruction is that instruction's encoding, the instruction is
well formed, and the same holds of the four bytes the window carries (R203, R304, R307). -/
def Obligations.EncodeOfDecode : Prop :=
  ∀ (w : Word) (i : Instr), decode w = .ok i →
    i.WellFormed = true ∧ encode i = w ∧ decodeBytes (bytesOfWord w) = .ok (i, [])

/-- R305: a word is illegal exactly when one of the four conditions holds, and an illegal word written to CMD ends with
IllegalCommand (code 6), whatever the registers hold, and writes no data register. -/
def Obligations.IllegalWordsRaiseIllegalCommand : Prop :=
  ∀ w : Word,
    ((∃ e, decode w = .error e) ↔ IllegalWord w) ∧
    (IllegalWord w → ∀ s : State, ∃ t, execute w s = .next t ∧ Failed s t 6 w)

/-! ### The commands: encoding, result, errors, frame -/

/-- R401, R402: ABS. -/
def Obligations.AbsCommand : Prop :=
  ∀ (rd rs1 : Reg) (s : State),
    decode (word 0x01 rd rs1 0) = .ok (.abs rd rs1) ∧
    (∃ t, exec (.abs rd rs1) s = .next t ∧
      ((s.reg rs1).toInt = -2 ^ 127 → Failed s t 1 (word 0x01 rd rs1 0)) ∧
      ((s.reg rs1).toInt ≠ -2 ^ 127 → Completed s t rd |(s.reg rs1).toInt|))

/-- R411: AVG, the floor of half the exact sum; it always succeeds. -/
def Obligations.AvgCommand : Prop :=
  ∀ (rd rs1 rs2 : Reg) (s : State),
    decode (word 0x02 rd rs1 rs2) = .ok (.avg rd rs1 rs2) ∧
    (∃ t, exec (.avg rd rs1 rs2) s = .next t ∧
      Completed s t rd (((s.reg rs1).toInt + (s.reg rs2).toInt) / 2))

/-- R421: GAVG. A negative product raises the error the parameter names; otherwise the result is the largest r whose square is at
most the exact product, and Overflow if that r is above MAX. -/
def Obligations.GavgCommand : Prop :=
  ∀ (rd rs1 rs2 : Reg) (s : State),
    decode (word 0x03 rd rs1 rs2) = .ok (.gavg rd rs1 rs2) ∧
    (∃ t, exec (.gavg rd rs1 rs2) s = .next t ∧
      ((s.reg rs1).toInt * (s.reg rs2).toInt < 0 →
        (s.cfg.gavgSignError = .domain → Failed s t 5 (word 0x03 rd rs1 rs2)) ∧
        (s.cfg.gavgSignError = .overflow → Failed s t 1 (word 0x03 rd rs1 rs2))) ∧
      (0 ≤ (s.reg rs1).toInt * (s.reg rs2).toInt →
        ∃ r : Nat, (r : Int) * r ≤ (s.reg rs1).toInt * (s.reg rs2).toInt ∧
          (s.reg rs1).toInt * (s.reg rs2).toInt < ((r : Int) + 1) * (r + 1) ∧
          (r ≤ 2 ^ 127 - 1 → Completed s t rd r) ∧
          (2 ^ 127 ≤ r → Failed s t 1 (word 0x03 rd rs1 rs2))))

/-- R501: MUL, the floor of the exact product over 2^64. -/
def Obligations.MulCommand : Prop :=
  ∀ (rd rs1 rs2 : Reg) (s : State),
    decode (word 0x04 rd rs1 rs2) = .ok (.mul rd rs1 rs2) ∧
    (∃ t, exec (.mul rd rs1 rs2) s = .next t ∧
      ∀ r : Int, r = (s.reg rs1).toInt * (s.reg rs2).toInt / 2 ^ 64 →
        (-2 ^ 127 ≤ r ∧ r ≤ 2 ^ 127 - 1 → Completed s t rd r) ∧
        (r < -2 ^ 127 ∨ 2 ^ 127 - 1 < r → Failed s t 1 (word 0x04 rd rs1 rs2)))

/-- R511, R513: DIV. A zero divisor is DivisionByZero whatever the dividend; otherwise the quotient of x · 2^64, truncated toward
zero (sign times floor of the magnitudes' quotient, R15), or Overflow if it does not fit. -/
def Obligations.DivCommand : Prop :=
  ∀ (rd rs1 rs2 : Reg) (s : State),
    decode (word 0x05 rd rs1 rs2) = .ok (.div rd rs1 rs2) ∧
    (∃ t, exec (.div rd rs1 rs2) s = .next t ∧
      ((s.reg rs2).toInt = 0 → Failed s t 2 (word 0x05 rd rs1 rs2)) ∧
      ((s.reg rs2).toInt ≠ 0 →
        ∀ q : Int, q = (s.reg rs1).toInt.sign * (s.reg rs2).toInt.sign *
            (|(s.reg rs1).toInt * 2 ^ 64| / |(s.reg rs2).toInt|) →
          (-2 ^ 127 ≤ q ∧ q ≤ 2 ^ 127 - 1 → Completed s t rd q) ∧
          (q < -2 ^ 127 ∨ 2 ^ 127 - 1 < q → Failed s t 1 (word 0x05 rd rs1 rs2))))

/-- R521: INV, 2^128 / x truncated toward zero; DivisionByZero at 0; Overflow if the quotient does not fit. -/
def Obligations.InvCommand : Prop :=
  ∀ (rd rs1 : Reg) (s : State),
    decode (word 0x06 rd rs1 0) = .ok (.inv rd rs1) ∧
    (∃ t, exec (.inv rd rs1) s = .next t ∧
      ((s.reg rs1).toInt = 0 → Failed s t 2 (word 0x06 rd rs1 0)) ∧
      ((s.reg rs1).toInt ≠ 0 →
        ∀ q : Int, q = (s.reg rs1).toInt.sign * (2 ^ 128 / |(s.reg rs1).toInt|) →
          (-2 ^ 127 ≤ q ∧ q ≤ 2 ^ 127 - 1 → Completed s t rd q) ∧
          (q < -2 ^ 127 ∨ 2 ^ 127 - 1 < q → Failed s t 1 (word 0x06 rd rs1 0))))

/-- R601: SQRT, the largest r with r·r ≤ x·2^64; NegativeInput for a negative x, and no other error. -/
def Obligations.SqrtCommand : Prop :=
  ∀ (rd rs1 : Reg) (s : State),
    decode (word 0x07 rd rs1 0) = .ok (.sqrt rd rs1) ∧
    (∃ t, exec (.sqrt rd rs1) s = .next t ∧
      ((s.reg rs1).toInt < 0 → Failed s t 3 (word 0x07 rd rs1 0)) ∧
      (0 ≤ (s.reg rs1).toInt →
        ∃ r : Nat, (r : Int) * r ≤ (s.reg rs1).toInt * 2 ^ 64 ∧ (s.reg rs1).toInt * 2 ^ 64 < ((r : Int) + 1) * (r + 1) ∧
          Completed s t rd r))

/-- R701: LOG2, by its bit scan and squaring recurrence; NonPositiveInput when x ≤ 0, and no other error. -/
def Obligations.Log2Command : Prop :=
  ∀ (rd rs1 : Reg) (s : State),
    decode (word 0x08 rd rs1 0) = .ok (.log2 rd rs1) ∧
    (∃ t, exec (.log2 rd rs1) s = .next t ∧
      ((s.reg rs1).toInt ≤ 0 → Failed s t 4 (word 0x08 rd rs1 0)) ∧
      (0 < (s.reg rs1).toInt → ∃ v, Log2Value (s.reg rs1).toInt v ∧ Completed s t rd v))

/-- R721, R722: LN is MUL of LOG2 and LN2_RAW; NonPositiveInput when x ≤ 0, and it never raises Overflow. -/
def Obligations.LnCommand : Prop :=
  ∀ (rd rs1 : Reg) (s : State),
    decode (word 0x09 rd rs1 0) = .ok (.ln rd rs1) ∧
    (∃ t, exec (.ln rd rs1) s = .next t ∧
      ((s.reg rs1).toInt ≤ 0 → Failed s t 4 (word 0x09 rd rs1 0)) ∧
      (0 < (s.reg rs1).toInt → ∃ l, Log2Value (s.reg rs1).toInt l ∧
        Completed s t rd (l * 0xB17217F7D1CF79AC / 2 ^ 64)))

/-- R731: EXP2. Overflow from 63.0, zero up to -64.0, and between them the constant product and the shift by the integer part. -/
def Obligations.Exp2Command : Prop :=
  ∀ (rd rs1 : Reg) (s : State),
    decode (word 0x0A rd rs1 0) = .ok (.exp2 rd rs1) ∧
    (∃ t, exec (.exp2 rd rs1) s = .next t ∧
      (63 * 2 ^ 64 ≤ (s.reg rs1).toInt → Failed s t 1 (word 0x0A rd rs1 0)) ∧
      ((s.reg rs1).toInt ≤ -(64 * 2 ^ 64) → Completed s t rd 0) ∧
      (-(64 * 2 ^ 64) < (s.reg rs1).toInt → (s.reg rs1).toInt < 63 * 2 ^ 64 →
        ∃ v, Exp2Value (s.reg rs1).toInt v ∧ Completed s t rd v))

/-- R751: EXP. Zero up to -64.0; otherwise EXP2 of y = MUL(x, LOG2E_RAW). EXP2's Overflow is y ≥ 63.0, and MUL's is part of that:
above -64.0, y is never below MIN. -/
def Obligations.ExpCommand : Prop :=
  ∀ (rd rs1 : Reg) (s : State),
    decode (word 0x0B rd rs1 0) = .ok (.exp rd rs1) ∧
    (∃ t, exec (.exp rd rs1) s = .next t ∧
      ((s.reg rs1).toInt ≤ -(64 * 2 ^ 64) → Completed s t rd 0) ∧
      (-(64 * 2 ^ 64) < (s.reg rs1).toInt →
        ∀ y : Int, y = (s.reg rs1).toInt * 0x171547652B82FE177 / 2 ^ 64 →
          (63 * 2 ^ 64 ≤ y → Failed s t 1 (word 0x0B rd rs1 0)) ∧
          (y ≤ -(64 * 2 ^ 64) → Completed s t rd 0) ∧
          (-(64 * 2 ^ 64) < y → y < 63 * 2 ^ 64 → ∃ v, Exp2Value y v ∧ Completed s t rd v)))

/-- R801, R804, R805: POW. The magnitude of R801's chain, the sign applied after rounding, and Overflow in the three places. A
negative result always completes: R801's test `mag > 2^127` never fires, as mag is at most 2^127 (R806). -/
def Obligations.PowCommand : Prop :=
  ∀ (rd rs1 rs2 : Reg) (s : State),
    decode (word 0x0C rd rs1 rs2) = .ok (.pow rd rs1 rs2) ∧
    (∃ t, exec (.pow rd rs1 rs2) s = .next t ∧
      ∃ mag : Option Nat, PowMagnitude (s.reg rs1).toInt.natAbs (s.reg rs2).toNat mag ∧
        (mag = none → Failed s t 1 (word 0x0C rd rs1 rs2)) ∧
        (∀ v : Nat, mag = some v → (s.reg rs1).toInt < 0 → (s.reg rs2).toNat % 2 = 1 → Completed s t rd (-v)) ∧
        (∀ v : Nat, mag = some v → ¬ ((s.reg rs1).toInt < 0 ∧ (s.reg rs2).toNat % 2 = 1) →
          (v ≤ 2 ^ 127 - 1 → Completed s t rd v) ∧ (2 ^ 127 ≤ v → Failed s t 1 (word 0x0C rd rs1 rs2))))

/-- R901: FROMINT, i · 2^64, with Overflow outside [-2^63, 2^63 - 1]. -/
def Obligations.FromintCommand : Prop :=
  ∀ (rd rs1 : Reg) (s : State),
    decode (word 0x10 rd rs1 0) = .ok (.fromint rd rs1) ∧
    (∃ t, exec (.fromint rd rs1) s = .next t ∧
      (-2 ^ 63 ≤ (s.reg rs1).toInt ∧ (s.reg rs1).toInt ≤ 2 ^ 63 - 1 → Completed s t rd ((s.reg rs1).toInt * 2 ^ 64)) ∧
      ((s.reg rs1).toInt < -2 ^ 63 ∨ 2 ^ 63 - 1 < (s.reg rs1).toInt → Failed s t 1 (word 0x10 rd rs1 0)))

/-- R911: TOINT under each value of TOINT_ROUNDING; it always succeeds and its result is within [-2^63, 2^63 - 1]. -/
def Obligations.TointCommand : Prop :=
  ∀ (rd rs1 : Reg) (s : State),
    decode (word 0x11 rd rs1 0) = .ok (.toint rd rs1) ∧
    (∃ t r, exec (.toint rd rs1) s = .next t ∧
      (s.cfg.toIntRounding = .towardZero → r = (s.reg rs1).toInt.sign * (|(s.reg rs1).toInt| / 2 ^ 64)) ∧
      (s.cfg.toIntRounding = .floor → r = (s.reg rs1).toInt / 2 ^ 64) ∧
      -2 ^ 63 ≤ r ∧ r ≤ 2 ^ 63 - 1 ∧ Completed s t rd r)

/-- R931: LDC loads the ROM's eight values (R108), reading no data register, and always succeeds; a constant index of 8
or more does not decode. -/
def Obligations.LdcCommand : Prop :=
  ∀ (rd : Reg) (k : Fin 16) (s : State),
    (8 ≤ k.val → decode (word 0x18 rd k 0) = .error .constIndex) ∧
    (k.val < 8 → decode (word 0x18 rd k 0) = .ok (.ldc rd k) ∧
      ∃ t, exec (.ldc rd k) s = .next t ∧
        (k = 0 → Completed s t rd 0) ∧
        (k = 1 → Completed s t rd (2 ^ 64)) ∧
        (k = 2 → Completed s t rd 0x2B7E151628AED2A6B) ∧
        (k = 3 → Completed s t rd 0x3243F6A8885A308D3) ∧
        (k = 4 → Completed s t rd 0xB17217F7D1CF79AC) ∧
        (k = 5 → Completed s t rd 0x171547652B82FE177) ∧
        (k = 6 → Completed s t rd (-2 ^ 127)) ∧
        (k = 7 → Completed s t rd (2 ^ 127 - 1)))

/-- R309, R921: the pseudo-instructions. MOV copies a register, bit for bit; CLR and ONE load 0 and SCALE; FROMRATIO is DIV. -/
def Obligations.PseudoInstructions : Prop :=
  (∀ (rd rs : Reg) (s : State),
    ∃ t, exec (Instr.mov rd rs) s = .next t ∧ Completed s t rd (s.reg rs).toInt ∧ t.reg rd = s.reg rs) ∧
  (∀ (rd : Reg) (s : State), ∃ t, exec (Instr.clr rd) s = .next t ∧ Completed s t rd 0) ∧
  (∀ (rd : Reg) (s : State), ∃ t, exec (Instr.one rd) s = .next t ∧ Completed s t rd (2 ^ 64)) ∧
  (∀ (rd rs1 rs2 : Reg) (s : State), exec (Instr.fromRatio rd rs1 rs2) s = exec (.div rd rs1 rs2) s)

/-! ### What the spec says of single commands beyond their pseudocode -/

/-- R412: AVG's result is the sum of the two arithmetic right shifts and the shared low bit, computed in 128 bits throughout. -/
def Obligations.AvgWithoutWideSum : Prop :=
  ∀ (rd rs1 rs2 : Reg) (s t : State), exec (.avg rd rs1 rs2) s = .next t →
    t.reg rd = (s.reg rs1).sshiftRight 1 + (s.reg rs2).sshiftRight 1 + (s.reg rs1 &&& s.reg rs2 &&& 1#128)

/-- R424: with a zero operand GAVG returns 0 whatever the other operand's sign, and among operands of non-negative product it
overflows only for x = y = MIN. -/
def Obligations.GavgZeroAndOverflow : Prop :=
  ∀ (rd rs1 rs2 : Reg) (s : State),
    ∃ t, exec (.gavg rd rs1 rs2) s = .next t ∧
      ((s.reg rs1).toInt = 0 ∨ (s.reg rs2).toInt = 0 → Completed s t rd 0) ∧
      (0 ≤ (s.reg rs1).toInt * (s.reg rs2).toInt →
        (t.code = 1 ↔ (s.reg rs1).toInt = -2 ^ 127 ∧ (s.reg rs2).toInt = -2 ^ 127))

/-- R502: for a product that is not exact, mul(-x, y) = -mul(x, y) - 1. -/
def Obligations.MulOfNegatedOperand : Prop :=
  ∀ x y r : Int, x * y % 2 ^ 64 ≠ 0 → mulRule x y = .ok r → mulRule (-x) y = .ok (-r - 1)

/-- R515: where |y| is at least SCALE and MUL does not overflow, DIV(MUL(x, y), y) is within one unit of x; for y = 0.25 and x = 7
ulp it is three units away. -/
def Obligations.DivOfMulRoundTrip : Prop :=
  (∀ x y p : Int, MIN ≤ x → x ≤ MAX → 2 ^ 64 ≤ |y| → mulRule x y = .ok p →
    ∃ q, divRule p y = .ok q ∧ |q - x| ≤ 1) ∧
  mulRule 7 (2 ^ 62) = .ok 1 ∧ divRule 1 (2 ^ 62) = .ok 4

/-- R522: INV(x) is the same function as DIV(SCALE, x), its errors included. -/
def Obligations.InvIsDivOfScale : Prop :=
  ∀ x : Int, invRule x = divRule (2 ^ 64) x

/-- R603, R604: SQRT's result is below 2^96, so it never overflows, and the root of MUL(x, x) is at most ABS(x). -/
def Obligations.SqrtBounds : Prop :=
  (∀ x : Int, 0 ≤ x → x ≤ MAX → ∃ r, sqrtRule x = .ok r ∧ 0 ≤ r ∧ r < 2 ^ 96) ∧
  (∀ x p : Int, mulRule x x = .ok p → ∃ r, sqrtRule p = .ok r ∧ r ≤ |x|)

/-- R705: LOG2 of a power of two is exact; j = 64 is LOG2(SCALE) = 0. -/
def Obligations.Log2OfPowersOfTwo : Prop :=
  ∀ (rd rs1 : Reg) (s : State) (j : Nat), j ≤ 126 → (s.reg rs1).toInt = 2 ^ j →
    ∃ t, exec (.log2 rd rs1) s = .next t ∧ Completed s t rd (((j : Int) - 64) * 2 ^ 64)

/-- R704: LOG2 never overflows; its result lies in [-64·2^64, 63·2^64). -/
def Obligations.Log2Range : Prop :=
  ∀ x : Int, 0 < x → x ≤ MAX → ∃ v, log2Rule x = .ok v ∧ -(64 * 2 ^ 64) ≤ v ∧ v < 63 * 2 ^ 64

/-- R735: in EXP2's loop every accumulator stays in [2^127, 2^128), every constant is above 2^128, and every product is below
2^256. -/
def Obligations.Exp2AccumulatorBounds : Prop :=
  ∀ (x : Int) (r : Nat → Nat), Exp2Accumulators x r →
    (∀ k ≤ 64, 2 ^ 127 ≤ r k ∧ r k < 2 ^ 128) ∧
    (∀ k, 1 ≤ k → k ≤ 64 → 2 ^ 128 < exp2Const k ∧ r (k - 1) * exp2Const k < 2 ^ 256)

/-- R733: below 63.0 EXP2 always succeeds, with a non-negative result that fits; from 63.0 on it overflows. -/
def Obligations.Exp2Fits : Prop :=
  ∀ x : Int,
    (x < 63 * 2 ^ 64 → ∃ r, exp2Rule x = .ok r ∧ 0 ≤ r ∧ r ≤ MAX) ∧
    (63 * 2 ^ 64 ≤ x → exp2Rule x = .error .overflow)

/-- R736: EXP2(j·2^64) = 2^(j+64) exactly for -63 ≤ j ≤ 62; j = 0 is EXP2(0) = SCALE. -/
def Obligations.Exp2OfIntegers : Prop :=
  ∀ (rd rs1 : Reg) (s : State) (j : Int), -63 ≤ j → j ≤ 62 → (s.reg rs1).toInt = j * 2 ^ 64 →
    ∃ t, exec (.exp2 rd rs1) s = .next t ∧ Completed s t rd (2 ^ (j + 64).toNat)

/-- R752: EXP is 0 for every x ≤ -0x2C_5C85FDF473DE6B01, and 1 ulp at the next x. -/
def Obligations.ExpUnderflowBoundary : Prop :=
  (∀ x : Int, x ≤ -0x2C5C85FDF473DE6B01 → expRule x = .ok 0) ∧
  expRule (-0x2C5C85FDF473DE6B00) = .ok 1

/-- R754: EXP overflows exactly from 0x2B_AB13E5FCA20EF156 on; below, it always succeeds. -/
def Obligations.ExpOverflowBoundary : Prop :=
  (∀ x : Int, 0x2BAB13E5FCA20EF156 ≤ x → expRule x = .error .overflow) ∧
  (∀ x : Int, x < 0x2BAB13E5FCA20EF156 → ∃ v, expRule x = .ok v ∧ 0 ≤ v ∧ v ≤ MAX)

/-- R745: every entry of the EXP2 table is the floor of the real number 2^(2^-k) · 2^128. -/
def Obligations.Exp2TableIsExactFloor : Prop :=
  ∀ k : Nat, 1 ≤ k → k ≤ 64 →
    (exp2Const k : ℤ) = ⌊(2 : ℝ) ^ ((1 : ℝ) / 2 ^ k) * 2 ^ 128⌋

/-- R803: POW(x, 0) = SCALE for every x, POW(0, n) = 0 for n > 0, and POW(x, 1) = x exactly, MIN and MAX included. -/
def Obligations.PowSpecialCases : Prop :=
  ∀ (rd rs1 rs2 : Reg) (s : State),
    ∃ t, exec (.pow rd rs1 rs2) s = .next t ∧
      ((s.reg rs2).toNat = 0 → Completed s t rd (2 ^ 64)) ∧
      ((s.reg rs1).toInt = 0 → 0 < (s.reg rs2).toNat → Completed s t rd 0) ∧
      ((s.reg rs2).toNat = 1 → Completed s t rd (s.reg rs1).toInt)

/-- R804: a negative base. For odd n the result of -x is the negated result of x, rounded toward zero; for even n it is the same;
and a result is negative only for a negative base and an odd n. -/
def Obligations.PowSign : Prop :=
  ∀ (x : Int) (n : Nat) (v : Int), 0 < x → powRule x n = .ok v →
    0 ≤ v ∧ (n % 2 = 1 → powRule (-x) n = .ok (-v)) ∧ (n % 2 = 0 → powRule (-x) n = .ok v)

/-- R806: POW's datapath fits the 256-bit multiplier. Up to 1.0, from the start values on, every step keeps t ≤ 2^127 and r ≤ 2^128.
Above 1.0 it keeps t in [2^127, 2^128) and r in [2^127, 2^128], the closed bound on r being the model's reading (log entry 13), since
r starts at 2^128. So the magnitude POW rounds to is at most 2^127. -/
def Obligations.PowDatapathBounds : Prop :=
  (2 ^ 127 ≤ powOne ∧ powOne ≤ 2 ^ 128) ∧
  (∀ m : Nat, m ≤ 2 ^ 64 → powSmallStart m ≤ 2 ^ 127) ∧
  (∀ r t : Nat, r ≤ 2 ^ 128 → t ≤ 2 ^ 127 →
    r * t ≤ 2 ^ 255 ∧ t * t ≤ 2 ^ 254 ∧ powSmallMul r t ≤ 2 ^ 128 ∧ powSmallSquare t ≤ 2 ^ 127) ∧
  (∀ m : Nat, 2 ^ 64 < m → m ≤ 2 ^ 127 →
    2 ^ 127 ≤ (powLargeStart m).mant ∧ (powLargeStart m).mant < 2 ^ 128 ∧ (powLargeStart m).exp ≤ 63) ∧
  (∀ r t : Scaled, 2 ^ 127 ≤ r.mant → r.mant ≤ 2 ^ 128 → 2 ^ 127 ≤ t.mant → t.mant < 2 ^ 128 →
    r.mant * t.mant < 2 ^ 256 ∧ t.mant * t.mant < 2 ^ 256 ∧
    2 ^ 127 ≤ (powMulStep r t).mant ∧ (powMulStep r t).mant ≤ 2 ^ 128 ∧
    2 ^ 127 ≤ (powSquareStep t).mant ∧ (powSquareStep t).mant < 2 ^ 128) ∧
  (∀ m n v : Nat, m ≤ 2 ^ 127 → powMagnitude m n = .ok v → v ≤ 2 ^ 127)

/-! ### Reset, the host window, the step -/

/-- R113, R105, R106: after reset STATUS reads 0, ECMD is 0 and no register word is written. That the data registers hold 0 is the
model's choice (log entry 1), and so are the parameters' values: R12's defaults. -/
def Obligations.ResetState : Prop :=
  State.reset.status = 0 ∧ State.reset.code = 0 ∧ State.reset.err = false ∧ State.reset.ecmd = 0 ∧
  (∀ r : Reg, State.reset.allWritten r = false ∧ State.reset.reg r = 0) ∧
  State.reset.cfg.gavgSignError = .domain ∧ State.reset.cfg.toIntRounding = .towardZero

/-- R1101, R1102: reset, whether or not it abandons a command w, gives STATUS and ECMD 0 and leaves no register marked written;
nothing of the command happens. The rest is the model's choice: that under the policy `resetValue` the data registers, UNSPECIFIED in
the spec, take the value `State.reset` names (log entries 1 and 2), that the parameters, the later accesses and the last read stay
(log entry 9), and that the resets are counted (log entry 7). -/
def Obligations.ResetAbandonsCommand : Prop :=
  ∀ (s : State) (w : Option Word) (rest : List BusEvent), s.bus = .reset w :: rest →
    ∃ t, step s = .next t ∧ t.code = 0 ∧ t.err = false ∧ t.ecmd = 0 ∧
      (s.cfg.uninit = .resetValue → ∀ r : Reg, t.reg r = State.reset.reg r) ∧ t.written = State.reset.written ∧
      t.cfg = s.cfg ∧ t.bus = rest ∧ t.readData = s.readData ∧ t.resets = s.resets + 1

/-- R107, R310: a step that serves a CMD write of w runs the instruction w decodes to, on the state with that access served, and
ends w with IllegalCommand if it decodes to none; `withFetchWord` makes its word the next such write. -/
def Obligations.StepRunsDecodedCommand : Prop :=
  (∀ (s : State) (w : Word) (i : Instr) (rest : List BusEvent),
    s.bus = .write 32 (s.cfg.fxuBase + 0x100) w :: rest → decode w = .ok i →
      step s = exec i { s with bus := rest }) ∧
  (∀ (s : State) (w : Word) (e : DecodeError) (rest : List BusEvent),
    s.bus = .write 32 (s.cfg.fxuBase + 0x100) w :: rest → decode w = .error e →
      ∃ t, step s = .next t ∧ Failed { s with bus := rest } t 6 w) ∧
  (∀ (s : State) (n : Nat) (i : Instr), decodeTableWord 32 n = some i → step (s.withFetchWord 32 n) = exec i s)

/-- R213, R202, R206: a host write to F<i>.W<j> replaces bits [127 - 32·j : 96 - 32·j] of Fi with the data, marks the word written,
and changes nothing else. -/
def Obligations.RegisterWordWrite : Prop :=
  ∀ (s : State) (i : Reg) (j : Fin 4) (v : Word) (rest : List BusEvent),
    s.bus = .write 32 (s.cfg.fxuBase + (16 * i.val + 4 * j.val)) v :: rest →
    ∃ t, step s = .next t ∧
      (∀ n : Nat, n < 128 → (t.reg i).getLsbD n =
        if 96 - 32 * j.val ≤ n ∧ n ≤ 127 - 32 * j.val then v.getLsbD (n - (96 - 32 * j.val)) else (s.reg i).getLsbD n) ∧
      (∀ q, q ≠ i → t.reg q = s.reg q) ∧
      (∀ (q : Reg) (l : Fin 4), t.written[q.val][l.val] = if q = i ∧ l = j then true else s.written[q.val][l.val]) ∧
      t.code = s.code ∧ t.err = s.err ∧ t.ecmd = s.ecmd ∧
      t.cfg = s.cfg ∧ t.bus = rest ∧ t.readData = s.readData ∧ t.resets = s.resets

/-- R203, R206, R213: a host read of F<i>.W<j> returns bits [127 - 32·j : 96 - 32·j] of Fi, its byte 16i + b is bits
[127 - 8·b : 120 - 8·b], and the read changes nothing but what the host last read, the model's field (log entry 6). It holds also of
a word not written since reset, whose bits the spec leaves open (log entries 1 and 7). -/
def Obligations.RegisterWordRead : Prop :=
  ∀ (s : State) (i : Reg) (j : Fin 4) (rest : List BusEvent),
    (∀ b : Nat, b / 4 = j.val → s.windowByte (16 * i.val + b) = (s.reg i).extractLsb' (120 - 8 * b) 8) ∧
    (s.bus = .read 32 (s.cfg.fxuBase + (16 * i.val + 4 * j.val)) :: rest →
      step s = .next { s with bus := rest, readData := some ((s.reg i).extractLsb' (96 - 32 * j.val) 32) })

/-- R105, R106, R107, R213: the other offsets. CMD and the reserved offsets read 0, ECMD reads itself, and the STATUS word has CODE
in bits [3:0], ERR in bit 8, and 0 elsewhere; a read at any allowed offset changes only what the host has read. -/
def Obligations.ControlRegisterReads : Prop :=
  ∀ s : State,
    s.hostRead 0x100 = 0 ∧ s.hostRead 0x108 = s.ecmd ∧
    (∀ off, 0x10C ≤ off → off < 0x200 → s.hostRead off = 0) ∧
    (s.hostRead 0x104).extractLsb' 0 4 = s.code ∧ (s.hostRead 0x104).getLsbD 8 = s.err ∧
    (∀ n, 4 ≤ n → n ≠ 8 → (s.hostRead 0x104).getLsbD n = false) ∧
    (∀ (off : Nat) (rest : List BusEvent), off % 4 = 0 → off < 0x200 → s.bus = .read 32 (s.cfg.fxuBase + off) :: rest →
      step s = .next { s with bus := rest, readData := some (s.hostRead off) })

/-- R105, R206: a host write to STATUS clears ERR if bit 8 is 1 and does nothing otherwise; CODE is never written by the host; writes
to ECMD and to the reserved offsets are ignored. -/
def Obligations.ControlRegisterWrites : Prop :=
  ∀ (s : State) (off : Nat) (v : Word) (rest : List BusEvent), off % 4 = 0 → off < 0x200 → 0x104 ≤ off →
    s.bus = .write 32 (s.cfg.fxuBase + off) v :: rest →
    (off = 0x104 → v.getLsbD 8 = true → step s = .next { s with bus := rest, err := false }) ∧
    (off ≠ 0x104 ∨ v.getLsbD 8 = false → step s = .next { s with bus := rest })

/-- R205, R206: a word the host writes reads back as written, and every other word reads as it did. -/
def Obligations.RegisterReadAfterWrite : Prop :=
  ∀ (s : State) (i i' : Reg) (j j' : Fin 4) (v : Word),
    (s.writeRegWord i j v).readRegWord i j = v ∧
    (i' ≠ i ∨ j' ≠ j → (s.writeRegWord i j v).readRegWord i' j' = s.readRegWord i' j')

/-- R204: an access of another width, at a misaligned offset, or at or beyond offset 0x200 has no step, and every other one is not
refused so. That an address below FXU_BASE is refused too is the model's reading (log entry 8): R204 does not say it in words. -/
def Obligations.BadAccessHasNoStep : Prop :=
  ∀ (s : State) (width addr : Nat) (v : Word) (rest : List BusEvent),
    (s.bus = .read width addr :: rest ∨ s.bus = .write width addr v :: rest) →
    (width ≠ 32 ∨ addr < s.cfg.fxuBase ∨ (addr - s.cfg.fxuBase) % 4 ≠ 0 ∨ 0x200 ≤ addr - s.cfg.fxuBase ↔
      step s = .refused .busError)

/-- R1014: with no access pending the unit is idle and keeps all state. -/
def Obligations.IdleKeepsState : Prop :=
  ∀ s : State, s.bus = [] → step s = .next s

/-! ### Whole-machine statements -/

/-- R103, R1003, R1004: every instruction answers a next state t, in which no register but the destination changes, nor its marks;
with CODE = 0 the destination is whole and ERR and ECMD stay; with CODE not 0 no data register changes, even where rd is a source,
ERR is 1, ECMD is the command's word, and CODE is 1 to 6; the host's side stays. -/
def Obligations.CommandFrame : Prop :=
  ∀ (i : Instr) (s : State), ∃ t, exec i s = .next t ∧
    (∀ q, q ≠ i.dest → t.reg q = s.reg q ∧ t.written[q.val] = s.written[q.val]) ∧
    (t.code = 0 → t.allWritten i.dest = true ∧ t.err = s.err ∧ t.ecmd = s.ecmd) ∧
    (t.code ≠ 0 → t.F = s.F ∧ t.written = s.written ∧ t.err = true ∧ t.ecmd = encode i) ∧
    t.code.toNat ≤ 6 ∧ HostSideKept s t

/-- R104, R1012: the run of a program whose next word is a command with a source register that has an unwritten word ends there with
`UninitRead` of such a register. That this ends the run and does not stop the unit is the model's reading (log entry 2). -/
def Obligations.UnwrittenSourceEndsRun : Prop :=
  ∀ (i : Instr) (w : Word) (ws : List Word) (pc : Nat) (s : State), decode w = .ok i →
    (∃ r ∈ i.sources, ∃ j : Fin 4, s.written[r.val][j.val] = false) →
    ∃ r ∈ i.sources, (∃ j : Fin 4, s.written[r.val][j.val] = false) ∧ runProgram (w :: ws) pc s = .uninitRead pc r

/-- R1107: every command ends, whatever the word written to CMD and whatever the state: the unit answers a next state. That it does
so too where a source register is unwritten is the model's reading of R104 (log entry 2). -/
def Obligations.EveryCommandEnds : Prop :=
  ∀ (w : Word) (s : State), ∃ t, execute w s = .next t

/-- R112, R310: a command's outcome depends on nothing but its source registers and the parameters. Two states that agree on these
end it with the same code, and with the same result if the code is 0, whatever else they hold. -/
def Obligations.CommandDependsOnSourcesOnly : Prop :=
  ∀ (i : Instr) (s s' : State), s.cfg = s'.cfg → (∀ r ∈ i.sources, s.reg r = s'.reg r) →
    ∃ t t', exec i s = .next t ∧ exec i s' = .next t' ∧
      t.code = t'.code ∧ (t.code = 0 → t.reg i.dest = t'.reg i.dest)

/-- R105, R1009: ERR is sticky. A step from a state with ERR = 1 leaves it 1, unless it serves a STATUS write with bit 8 = 1 or a
reset. -/
def Obligations.ErrIsSticky : Prop :=
  ∀ s t : State, s.err = true → step s = .next t →
    t.err = true ∨
    (∃ v rest, s.bus = .write 32 (s.cfg.fxuBase + 0x104) v :: rest ∧ v.getLsbD 8 = true) ∨
    (∃ w rest, s.bus = .reset w :: rest)

/-- R1001, R105, R106: the error record is right in every reachable state. If CODE and ECMD agree in s (CODE is 0, or 6 and ECMD
is illegal, or ECMD is the word of a command that R1001 lists for the error CODE names), they agree after every step. -/
def Obligations.ErrorRecordInvariant : Prop :=
  ∀ s t : State, ErrorRecordOk s → step s = .next t → ErrorRecordOk t

/-- The error record is right at reset, and where it is right CODE is 0 to 6 (R105, R113). -/
def Obligations.ErrorRecordAtReset : Prop :=
  ErrorRecordOk State.reset ∧ ∀ s : State, ErrorRecordOk s → s.code.toNat ≤ 6

/-- R104: a word marked written since reset stays so marked until the next reset. -/
def Obligations.WrittenMarksOnlyGrow : Prop :=
  ∀ (s t : State) (q : Reg) (j : Fin 4), step s = .next t → s.written[q.val][j.val] = true →
    t.written[q.val][j.val] = true ∨ ∃ w rest, s.bus = .reset w :: rest

/-- Of the model's own fields, by its choice: no step changes the parameters (log entries 3 and 9), a step takes exactly the first
pending access off the list (log entry 5, for R209's order), and only a reset counts as one (log entry 7). -/
def Obligations.StepKeepsConfiguration : Prop :=
  ∀ s t : State, step s = .next t →
    t.cfg = s.cfg ∧ t.bus = s.bus.tail ∧
    (t.resets = s.resets ∨ (t.resets = s.resets + 1 ∧ ∃ w rest, s.bus = .reset w :: rest))

/-- R204, R1107: a run never stops. From a state where every pending access is one R204 allows, a step answers a next state, of which
the same holds; the reset state is one. That a command with an unwritten source does not stop the run is the model's reading of R104
(log entry 2), and so are the list of pending accesses (log entry 5) and that an address below FXU_BASE is not allowed (log entry 8). -/
def Obligations.AllowedAccessesNeverStop : Prop :=
  NeverStops State.reset ∧
  ∀ s : State, NeverStops s → ∃ t, step s = .next t ∧ NeverStops t

/-- R1012: the run goes on after a command that ends with CODE 0 and ends with `faultedAt` after one that does not, an illegal word
included; it ends with `ended` when no word is left. A command whose sources are written is never an `UninitRead`. -/
def Obligations.RunFollowsHostDiscipline : Prop :=
  (∀ (pc : Nat) (s : State), runProgram [] pc s = .ended s) ∧
  (∀ (i : Instr) (w : Word) (ws : List Word) (pc : Nat) (s : State), decode w = .ok i →
    (∀ r ∈ i.sources, ∀ j : Fin 4, s.written[r.val][j.val] = true) →
    ∃ t, exec i s = .next t ∧
      (t.code = 0 → runProgram (w :: ws) pc s = runProgram ws (pc + 1) t) ∧
      (t.code ≠ 0 → runProgram (w :: ws) pc s = .faultedAt pc t)) ∧
  (∀ (e : DecodeError) (w : Word) (ws : List Word) (pc : Nat) (s : State), decode w = .error e →
    ∃ t, Failed s t 6 w ∧ runProgram (w :: ws) pc s = .faultedAt pc t)
end

