-- ==== Sys2Proof/Tests/Slice0.lean ====
section
/-! SUPPORT. The model's own tests, expected values from the spec's 95_test_vectors.md (table or program named at each), and for
every obligation with hypotheses a concrete state and operands that meet them. -/

namespace Sys2Proof.Tests

open Sys2Proof.Machine Sys2Proof.Spec

/-! ### Helpers -/

/-- A freshly reset unit with one register loaded. -/
def with1 (r : Reg) (v : Int) : State := State.reset.complete r v

/-- A freshly reset unit with two registers loaded. -/
def with2 (r : Reg) (v : Int) (q : Reg) (w : Int) : State := (with1 r v).complete q w

/-- The same state under the other value of both parameters of R12, and of the policy for the registers after reset. -/
def otherParams (s : State) : State :=
  { s with cfg := { s.cfg with gavgSignError := .overflow, toIntRounding := .floor, uninit := .anyValue } }

/-- The next state an outcome answers, if it answers one. -/
def nextOf : Out → Option State
  | .next t => some t
  | .fault _ => none
  | .refused _ => none

/-- What a command leaves: its destination's value, and CODE. -/
def leaves (i : Instr) (s : State) : Option (Int × Nat) :=
  (nextOf (exec i s)).map fun t => ((t.reg i.dest).toInt, t.code.toNat)

/-- F5 op F1. -/
def unary (f : Reg → Reg → Instr) (x : Int) : Option (Int × Nat) := leaves (f 5 1) (with1 1 x)

/-- F5 op F1, F2. -/
def binary (f : Reg → Reg → Reg → Instr) (x y : Int) : Option (Int × Nat) := leaves (f 5 1 2) (with2 1 x 2 y)

theorem next_of_nextOf {o : Out} {t : State} (h : nextOf o = some t) : o = .next t := by
  cases o <;> simp_all [nextOf]

/-- An outcome that passes a check on its next state answers such a state. -/
theorem next_with {o : Out} {p : State → Prop} [DecidablePred p] (h : (nextOf o).any (fun t => decide (p t)) = true) :
    ∃ t, o = .next t ∧ p t := by
  cases o <;> simp_all [nextOf]

/-! ### Well-formedness and decoding -/

/-- R305: "The format is RK, and K ≥ 8". -/
theorem test_ldc_const_index_refused : (Instr.ldc 0 8).WellFormed = false ∧ (Instr.ldc 0 15).WellFormed = false := by decide

theorem test_well_formed_accepted : (Instr.ldc 0 7).WellFormed = true ∧ (Instr.pow 15 15 15).WellFormed = true := by decide

/-- L2.4: 0x01200000. -/
theorem test_decode_abs : decode 0b00000001001000000000000000000000#32 = .ok (.abs 2 0) := by decide

/-- L3 P1: 0x02312000. -/
theorem test_decode_avg : decode 0b00000010001100010010000000000000#32 = .ok (.avg 3 1 2) := by decide

/-- L3 P4: 0x03634000. -/
theorem test_decode_gavg : decode 0b00000011011000110100000000000000#32 = .ok (.gavg 6 3 4) := by decide

/-- L2.4: 0x04312000. -/
theorem test_decode_mul : decode 0b00000100001100010010000000000000#32 = .ok (.mul 3 1 2) := by decide

/-- L3 P3: 0x05201000. -/
theorem test_decode_div : decode 0b00000101001000000001000000000000#32 = .ok (.div 2 0 1) := by decide

/-- R304: OP 0x06, RD 10, RS1 12. -/
theorem test_decode_inv : decode 0b00000110101011000000000000000000#32 = .ok (.inv 10 12) := by decide

/-- L3 P4: 0x07540000. -/
theorem test_decode_sqrt : decode 0b00000111010101000000000000000000#32 = .ok (.sqrt 5 4) := by decide

/-- L3 P2: 0x08210000. -/
theorem test_decode_log2 : decode 0b00001000001000010000000000000000#32 = .ok (.log2 2 1) := by decide

/-- L3 P1: 0x09100000. -/
theorem test_decode_ln : decode 0b00001001000100000000000000000000#32 = .ok (.ln 1 0) := by decide

/-- L3 P2: 0x0A320000. -/
theorem test_decode_exp2 : decode 0b00001010001100100000000000000000#32 = .ok (.exp2 3 2) := by decide

/-- R304: OP 0x0B, RD 6, RS1 9. -/
theorem test_decode_exp : decode 0b00001011011010010000000000000000#32 = .ok (.exp 6 9) := by decide

/-- L2.4: 0x0C432000. -/
theorem test_decode_pow : decode 0b00001100010000110010000000000000#32 = .ok (.pow 4 3 2) := by decide

/-- L3 P2: 0x10100000. -/
theorem test_decode_fromint : decode 0b00010000000100000000000000000000#32 = .ok (.fromint 1 0) := by decide

/-- L3 P2: 0x11430000. -/
theorem test_decode_toint : decode 0b00010001010000110000000000000000#32 = .ok (.toint 4 3) := by decide

/-- L3 P3: 0x18230000. -/
theorem test_decode_ldc : decode 0b00011000001000110000000000000000#32 = .ok (.ldc 2 3) := by decide

/-- L2.4, its illegal words, each with its reason. -/
theorem test_decode_illegal :
    decode 0x0D000000#32 = .error .unassignedOpcode ∧ decode 0x12000000#32 = .error .unassignedOpcode ∧
    decode 0xFF000000#32 = .error .unassignedOpcode ∧ decode 0x04312800#32 = .error .reservedBits ∧
    decode 0x01201000#32 = .error .rs2InRU ∧ decode 0x18071000#32 = .error .rs2InRK ∧
    decode 0x180F0000#32 = .error .constIndex := by decide

/-- The bytes of L3 P1's first word, in the window's order (R203), decode to its command; three bytes are no word. -/
theorem test_decode_bytes :
    decodeBytes [0x18, 0x02, 0x00, 0x00, 0x09] = .ok (.ldc 0 2, [0x09]) ∧ decodeBytes [0x18, 0x02, 0x00] = .error .tooShort := by
  decide

/-- The host's two functions on L3 P1's first word: the decoder gives LDC F0, #E and the first step after reset runs it. -/
theorem test_table_word :
    decodeTableWord 32 0x18020000 = some (.ldc 0 2) ∧
    (nextOf (step (State.reset.withFetchWord 32 0x18020000))).map (fun t => (t.reg 0, t.bus)) =
      some (0x2B7E151628AED2A6B#128, []) := by decide +kernel

/-- L2.3, L2.4: assembler text. -/
theorem test_assembly :
    assembly (.mul 3 1 2) = "MUL F3, F1, F2" ∧ assembly (.abs 0 15) = "ABS F0, F15" ∧ assembly (.ldc 0 5) = "LDC F0, #LOG2E" := by
  decide

/-! ### Commands: result and CODE (L2.1) -/

theorem test_abs_min_plus_one : unary .abs (-(2 ^ 127 - 1)) = some (2 ^ 127 - 1, 0) := by decide +kernel
theorem test_abs_min : unary .abs (-2 ^ 127) = some (0, 1) := by decide +kernel

theorem test_avg_rounds_down : binary .avg (-1) (-2) = some (-2, 0) := by decide +kernel
theorem test_avg_max_min : binary .avg (2 ^ 127 - 1) (-2 ^ 127) = some (-1, 0) := by decide +kernel

theorem test_gavg_both_negative : binary .gavg (-0x40000000000000000) (-0x90000000000000000) = some (0x60000000000000000, 0) := by
  decide +kernel

/-- L2.1 and L2.2: the sign error under both parameter values. -/
theorem test_gavg_sign_error :
    binary .gavg (-2 ^ 127) 1 = some (0, 5) ∧
    leaves (.gavg 5 1 2) (otherParams (with2 1 (-2 ^ 127) 2 1)) = some (0, 1) := by decide +kernel

theorem test_mul_floor : binary .mul (-3) 0x8000000000000000 = some (-2, 0) := by decide +kernel
theorem test_mul_overflow : binary .mul (-2 ^ 127) (-2 ^ 64) = some (0, 1) := by decide +kernel

theorem test_div_truncates : binary .div (-0x70000000000000000) 0x20000000000000000 = some (-0x38000000000000000, 0) := by
  decide +kernel
theorem test_div_zero_by_zero : binary .div 0 0 = some (0, 2) := by decide +kernel

theorem test_inv_minus_two_ulp : unary .inv (-2) = some (-2 ^ 127, 0) := by decide +kernel
theorem test_inv_two_ulp : unary .inv 2 = some (0, 1) := by decide +kernel

theorem test_sqrt_max : unary .sqrt (2 ^ 127 - 1) = some (0xB504F333F9DE6484597D89B3, 0) := by decide +kernel
theorem test_sqrt_negative : unary .sqrt (-1) = some (0, 3) := by decide +kernel

theorem test_log2_three : unary .log2 0x30000000000000000 = some (0x195C01A39FBD6879F, 0) := by decide +kernel
theorem test_log2_zero : unary .log2 0 = some (0, 4) := by decide +kernel

theorem test_ln_one_ulp : unary .ln 1 = some (-0x2C5C85FDF473DE6B00, 0) := by decide +kernel
theorem test_ln_negative : unary .ln (-0x10000000000000000) = some (0, 4) := by decide +kernel

theorem test_exp2_below_63 : unary .exp2 0x3EFFFFFFFFFFFFFFFF = some (0x7FFFFFFFFFFFFFFFA746F4041718430C, 0) := by decide +kernel
theorem test_exp2_63 : unary .exp2 0x3F0000000000000000 = some (0, 1) := by decide +kernel

theorem test_exp_minus_one : unary .exp (-0x10000000000000000) = some (0x5E2D58D8B3BCDF1A, 0) := by decide +kernel
theorem test_exp_overflow_boundary :
    unary .exp 0x2BAB13E5FCA20EF155 = some (0x7FFFFFFFFFFFFFFFA746F4041718430C, 0) ∧
    unary .exp 0x2BAB13E5FCA20EF156 = some (0, 1) := by decide +kernel

theorem test_pow_long_exponent : binary .pow 0x10000000000000001 0x10000000000000000 = some (0x2B7E151628AED2A68, 0) := by
  decide +kernel

/-- L2.1: (-2.0)^63 is MIN, and the exponent is unsigned: (-1.0)^(2^128 - 1) is -1.0. -/
theorem test_pow_negative_base :
    binary .pow (-0x20000000000000000) 0x3F = some (-2 ^ 127, 0) ∧
    binary .pow (-0x10000000000000000) (-1) = some (-0x10000000000000000, 0) := by decide +kernel

theorem test_fromint_least : unary .fromint (-0x8000000000000000) = some (-2 ^ 127, 0) := by decide +kernel
theorem test_fromint_overflow : unary .fromint 0x8000000000000000 = some (0, 1) := by decide +kernel

/-- L2.1 and L2.2: TOINT(-3.5) under both parameter values. -/
theorem test_toint_rounding :
    unary .toint (-0x38000000000000000) = some (-3, 0) ∧
    leaves (.toint 5 1) (otherParams (with1 1 (-0x38000000000000000))) = some (-4, 0) := by decide +kernel
theorem test_toint_min : unary .toint (-2 ^ 127) = some (-0x8000000000000000, 0) := by decide +kernel

/-- L2.3: MIN and MAX. -/
theorem test_ldc_extremes :
    leaves (.ldc 0 6) State.reset = some (-2 ^ 127, 0) ∧ leaves (.ldc 0 7) State.reset = some (2 ^ 127 - 1, 0) := by decide +kernel

/-! ### Errors, the window, reset -/

/-- L3 P3: a failed DIV leaves F2, sets STATUS and ECMD; writing 0x100 to STATUS then clears ERR and keeps CODE. -/
theorem test_error_record :
    (nextOf (exec (.div 2 0 1) (with2 0 0x10000000000000000 2 0x3243F6A8885A308D3))).map
        (fun t => (t.reg 2, t.status, t.ecmd, (t.writeStatus 0x100).status)) =
      some (0x3243F6A8885A308D3#128, 0x102#32, 0x05201000#32, 0x002#32) := by decide +kernel

/-- L3 P6: an illegal word after LDC F0, #MAX. -/
theorem test_illegal_command :
    (nextOf (execute 0x18080000#32 (with1 0 (2 ^ 127 - 1)))).map (fun t => (t.reg 0, t.status, t.ecmd)) =
      some ((0x7FFFFFFFFFFFFFFFFFFFFFFFFFFFFFFF#128), 0x106#32, 0x18080000#32) := by decide +kernel

/-- L2.5: F1 = E_RAW through the window, word by word and byte by byte. -/
theorem test_window_words :
    [0x10, 0x14, 0x18, 0x1C].map (with1 1 0x2B7E151628AED2A6B).hostRead = [0, 2, 0xB7E15162, 0x8AED2A6B] := by decide +kernel

theorem test_window_bytes :
    (List.range 16).map (fun b => (with1 1 0x2B7E151628AED2A6B).windowByte (0x10 + b)) =
      [0, 0, 0, 0, 0, 0, 0, 2, 0xB7, 0xE1, 0x51, 0x62, 0x8A, 0xED, 0x2A, 0x6B] := by decide +kernel

/-- L2.5: writing F1.W3, offset 0x1C. -/
theorem test_window_write :
    (nextOf (hostWrite 0x1C 0 (with1 1 0x2B7E151628AED2A6B))).map (·.reg 1) = some 0x2B7E1516200000000#128 := by decide +kernel

/-- L2.5: CMD and the reserved offsets read 0; writes to ECMD and a reserved offset do nothing. -/
theorem test_window_control :
    State.reset.hostRead 0x100 = 0 ∧ State.reset.hostRead 0x10C = 0 ∧
    nextOf (hostWrite 0x108 0x12345678 State.reset) = some State.reset ∧
    nextOf (hostWrite 0x1FC 0xFFFFFFFF State.reset) = some State.reset := by decide +kernel

/-- R1104: four word writes load a register whole. -/
theorem test_load_reg :
    (loadReg 1 0x00000000000000020B7E151628AED2A6#128 (otherParams State.reset)).reg 1 = 0x00000000000000020B7E151628AED2A6#128 ∧
    (loadReg 1 0x00000000000000020B7E151628AED2A6#128 (otherParams State.reset)).allWritten 1 = true := by decide +kernel

/-- L2.5: a 16-bit read is a bus error; so is a misaligned one. -/
theorem test_bus_error :
    step { State.reset with bus := [.read 16 0x10] } = .refused .busError ∧
    step { State.reset with bus := [.read 32 0x11] } = .refused .busError := ⟨rfl, rfl⟩

/-- R1101, R1102: reset while a command is in progress. -/
theorem test_reset_event :
    (nextOf (step { with1 3 7 with code := 1, err := true, ecmd := 5, bus := [.reset (some 0x04000000)] })).map
      (fun t => (t.status, t.ecmd, t.reg 3, t.allWritten 3)) = some (0, 0, 0, false) := by decide +kernel

/-- L3 P8: the run ends with `UninitRead` of F1; with every word of F1 written but one, still so. -/
theorem test_uninit_read :
    runProgram [0x01010000] 0 State.reset = .uninitRead 0 1 ∧
    runProgram [0x01010000] 0 (((State.reset.writeRegWord 1 0 0).writeRegWord 1 1 0).writeRegWord 1 3 0) = .uninitRead 0 1 := by
  decide +kernel

/-- R1104: the unit itself reads what stands there: after L3 P8's command CODE is 0 and ABS(0) = 0 is in F0 (log entries 1, 2). -/
theorem test_unwritten_source_runs : leaves (.abs 0 1) State.reset = some (0, 0) := by decide +kernel

/-- What a program's end shows: the pc it stopped at if any, STATUS, ECMD. -/
def shown : ProgramEnd → Option (Option Nat × Word × Word)
  | .ended s => some (none, s.status, s.ecmd)
  | .faultedAt pc s => some (some pc, s.status, s.ecmd)
  | .uninitRead _ _ => none
  | .stopped _ => none

/-- L3 P3: the program stops at its DIV. -/
theorem test_program_divide_by_zero :
    shown (runProgram [0x18010000, 0x18100000, 0x18230000, 0x05201000, 0x07320000] 0 State.reset) =
      some (some 3, 0x102, 0x05201000) := by decide +kernel

/-! ### Witnesses: states and operands that meet the obligations' hypotheses -/

theorem witness_DecodeOfEncode : (Instr.ldc 15 7).WellFormed = true ∧ (Instr.div 15 0 15).WellFormed = true := by decide

theorem witness_EncodeOfDecode : decode 0x18F70000#32 = .ok (.ldc 15 7) ∧ decode 0x05F0F000#32 = .ok (.div 15 0 15) := by decide

/-- One word for each of R305's four conditions, at the edge of its range. -/
theorem witness_IllegalWordsRaiseIllegalCommand :
    IllegalWord 0x0D000000#32 ∧ IllegalWord 0x04312001#32 ∧ IllegalWord 0x04312800#32 ∧ IllegalWord 0x01201000#32 ∧
    IllegalWord 0x18071000#32 ∧ IllegalWord 0x18080000#32 ∧ ¬ IllegalWord 0x18070000#32 ∧ ¬ IllegalWord 0x0C432000#32 := by
  refine ⟨?_, ?_, ?_, ?_, ?_, ?_, ?_, ?_⟩ <;> simp only [IllegalWord] <;> decide

theorem witness_AbsCommand :
    ((with1 1 (-2 ^ 127)).reg 1).toInt = -2 ^ 127 ∧ ((with1 1 (1 - 2 ^ 127)).reg 1).toInt ≠ -2 ^ 127 := by decide +kernel

/-- The sign error's two clauses, and the root at its two ends: MAX from MIN and MIN + 1, 2^127 from MIN and MIN. -/
theorem witness_GavgCommand :
    ((with2 1 1 2 (-1)).reg 1).toInt * ((with2 1 1 2 (-1)).reg 2).toInt < 0 ∧
    (with2 1 1 2 (-1)).cfg.gavgSignError = .domain ∧ (otherParams (with2 1 1 2 (-1))).cfg.gavgSignError = .overflow ∧
    ((2 ^ 127 - 1 : Nat) : Int) * (2 ^ 127 - 1 : Nat) ≤ -2 ^ 127 * (1 - 2 ^ 127) ∧
    (-2 ^ 127 * (1 - 2 ^ 127) : Int) < ((2 ^ 127 - 1 : Nat) + 1) * ((2 ^ 127 - 1 : Nat) + 1) ∧
    ((2 ^ 127 : Nat) : Int) * (2 ^ 127 : Nat) ≤ -2 ^ 127 * -2 ^ 127 ∧
    (-2 ^ 127 * -2 ^ 127 : Int) < ((2 ^ 127 : Nat) + 1) * ((2 ^ 127 : Nat) + 1) := by decide +kernel

/-- MUL's range at both ends: MIN · 1.0 = MIN, MAX · 1.0 = MAX, MIN · -1.0 = 2^127, and (MIN) · (1.0 + 1 ulp) below MIN. -/
theorem witness_MulCommand :
    (-2 ^ 127 * 2 ^ 64 / 2 ^ 64 : Int) = -2 ^ 127 ∧ ((2 ^ 127 - 1) * 2 ^ 64 / 2 ^ 64 : Int) = 2 ^ 127 - 1 ∧
    2 ^ 127 - 1 < (-2 ^ 127 * -2 ^ 64 / 2 ^ 64 : Int) ∧ (-2 ^ 127 * (2 ^ 64 + 1) / 2 ^ 64 : Int) < -2 ^ 127 := by decide +kernel

/-- DIV by 0; quotients MIN (MIN / 1.0) and 0 (1 ulp / MAX); quotients 2^127 (MIN / -1.0) and below MIN (MIN / (1.0 - 1 ulp)). -/
theorem witness_DivCommand :
    ((with2 1 0 2 0).reg 2).toInt = 0 ∧ ((with2 1 0 2 (-1)).reg 2).toInt ≠ 0 ∧
    (-2 ^ 127 : Int).sign * (2 ^ 64 : Int).sign * (|-2 ^ 127 * 2 ^ 64| / |2 ^ 64|) = -2 ^ 127 ∧
    (1 : Int).sign * (2 ^ 127 - 1 : Int).sign * (|1 * 2 ^ 64| / |2 ^ 127 - 1|) = 0 ∧
    2 ^ 127 - 1 < (-2 ^ 127 : Int).sign * (-2 ^ 64 : Int).sign * (|-2 ^ 127 * 2 ^ 64| / |-2 ^ 64|) ∧
    (-2 ^ 127 : Int).sign * (2 ^ 64 - 1 : Int).sign * (|-2 ^ 127 * 2 ^ 64| / |2 ^ 64 - 1|) < -2 ^ 127 := by decide +kernel

/-- INV at 0; its least quotient MIN (at -2), its overflows at 2 (2^127) and -1 (-2^128). -/
theorem witness_InvCommand :
    ((with1 1 0).reg 1).toInt = 0 ∧ ((with1 1 (-2)).reg 1).toInt ≠ 0 ∧
    (-2 : Int).sign * (2 ^ 128 / |-2|) = -2 ^ 127 ∧ 2 ^ 127 - 1 < (2 : Int).sign * (2 ^ 128 / |2|) ∧
    (-1 : Int).sign * (2 ^ 128 / |-1|) < -2 ^ 127 := by decide +kernel

theorem witness_SqrtCommand :
    ((with1 1 (-1)).reg 1).toInt < 0 ∧ 0 ≤ ((with1 1 0).reg 1).toInt := by decide +kernel

theorem witness_Log2Command :
    ((with1 1 0).reg 1).toInt ≤ 0 ∧ 0 < ((with1 1 1).reg 1).toInt := by decide +kernel

theorem witness_LnCommand :
    ((with1 1 0).reg 1).toInt ≤ 0 ∧ 0 < ((with1 1 1).reg 1).toInt := by decide +kernel

/-- 63.0 and one ulp below it, -64.0 and one ulp above it. -/
theorem witness_Exp2Command :
    63 * 2 ^ 64 ≤ ((with1 1 0x3F0000000000000000).reg 1).toInt ∧
    ((with1 1 0x3EFFFFFFFFFFFFFFFF).reg 1).toInt < 63 * 2 ^ 64 ∧
    ((with1 1 (-0x400000000000000000)).reg 1).toInt ≤ -(64 * 2 ^ 64) ∧
    -(64 * 2 ^ 64) < ((with1 1 (-0x3FFFFFFFFFFFFFFFFF)).reg 1).toInt := by decide +kernel

/-- EXP's clauses: -64.0; y at most -64.0 from R752's threshold on; y just above it; y = 63.0 or more from R754's threshold on. -/
theorem witness_ExpCommand :
    ((with1 1 (-0x400000000000000000)).reg 1).toInt ≤ -(64 * 2 ^ 64) ∧
    -(64 * 2 ^ 64) < ((with1 1 (-0x3FFFFFFFFFFFFFFFFF)).reg 1).toInt ∧
    (-0x2C5C85FDF473DE6B01 * 0x171547652B82FE177 / 2 ^ 64 : Int) ≤ -(64 * 2 ^ 64) ∧
    -(64 * 2 ^ 64) < (-0x2C5C85FDF473DE6B00 * 0x171547652B82FE177 / 2 ^ 64 : Int) ∧
    (0x2BAB13E5FCA20EF155 * 0x171547652B82FE177 / 2 ^ 64 : Int) < 63 * 2 ^ 64 ∧
    63 * 2 ^ 64 ≤ (0x2BAB13E5FCA20EF156 * 0x171547652B82FE177 / 2 ^ 64 : Int) := by decide +kernel

theorem witness_FromintCommand :
    -2 ^ 63 ≤ ((with1 1 (-2 ^ 63)).reg 1).toInt ∧ ((with1 1 (2 ^ 63 - 1)).reg 1).toInt ≤ 2 ^ 63 - 1 ∧
    ((with1 1 (-2 ^ 63 - 1)).reg 1).toInt < -2 ^ 63 ∧ 2 ^ 63 - 1 < ((with1 1 (2 ^ 63)).reg 1).toInt := by decide +kernel

theorem witness_TointCommand :
    (with1 1 7).cfg.toIntRounding = .towardZero ∧ (otherParams (with1 1 7)).cfg.toIntRounding = .floor := by decide +kernel

theorem witness_LdcCommand : (0 : Fin 16).val < 8 ∧ (7 : Fin 16).val < 8 ∧ 8 ≤ (8 : Fin 16).val := by decide

/-- POW's chain up to 1.0, run. -/
def smallT (m : Nat) : Nat → Nat
  | 0 => m * 2 ^ 63
  | j + 1 => smallT m j * smallT m j / 2 ^ 127

/-- See `smallT`. -/
def smallR (m n : Nat) : Nat → Nat
  | 0 => 2 ^ 128
  | j + 1 => if n.testBit j then smallR m n j * smallT m j / 2 ^ 127 else smallR m n j

theorem small_chain (m n : Nat) : PowSmallChain m n (smallR m n) (smallT m) :=
  ⟨rfl, rfl, fun _ => rfl, fun _ => rfl⟩

/-- POW's base chain above 1.0, run: mantissa and exponent, from the place k of the base's highest bit. -/
def largeT (m k : Nat) : Nat → Nat × Nat
  | 0 => (m * 2 ^ (127 - k), k - 64)
  | j + 1 =>
    let t := largeT m k j
    if t.1 * t.1 / 2 ^ 127 < 2 ^ 128 then (t.1 * t.1 / 2 ^ 127, 2 * t.2) else (t.1 * t.1 / 2 ^ 127 / 2, 2 * t.2 + 1)

/-- See `largeT`. -/
def largeR (m k n : Nat) : Nat → Nat × Nat
  | 0 => (2 ^ 128, 0)
  | j + 1 =>
    let r := largeR m k n j
    let t := largeT m k j
    if n.testBit j then
      if r.1 * t.1 / 2 ^ 127 ≤ 2 ^ 128 then (r.1 * t.1 / 2 ^ 127, r.2 + t.2) else (r.1 * t.1 / 2 ^ 127 / 2, r.2 + t.2 + 1)
    else r

theorem large_chain (m k n : Nat) (h : 2 ^ k ≤ m) (h' : m < 2 ^ (k + 1)) :
    PowLargeChain m n (fun j => (largeR m k n j).1) (fun j => (largeR m k n j).2) (fun j => (largeT m k j).1)
      (fun j => (largeT m k j).2) := by
  refine ⟨⟨k, h, h', rfl, rfl⟩, rfl, rfl, ?_, ?_, ?_, ?_, ?_⟩
  · intro j hj; simp [largeR, hj]
  · intro j hj hb
    simp only [largeR, hj, if_true, if_pos hb, and_self]
  · intro j hj hb
    simp only [largeR, hj, if_true, if_neg (Nat.not_le.mpr hb), and_self]
  · intro j hb
    simp only [largeT, if_pos hb, and_self]
  · intro j hb
    simp only [largeT, if_neg (Nat.not_lt.mpr hb), and_self]

/-- POW up to 1.0: 0.5^64 is 1 ulp. -/
theorem witness_PowCommand_small : PowMagnitude (2 ^ 63) 64 (some 1) := by
  refine ⟨fun _ => ⟨_, _, small_chain _ _, ?_⟩, fun h => absurd h (by decide)⟩
  decide +kernel

/-- POW above 1.0, place 1 of R805: (2^32)^2, its base power at 2^64 with an exponent bit left. -/
theorem witness_PowCommand_place1 : PowMagnitude (2 ^ 96) 2 none := by
  refine ⟨fun h => absurd h (by decide), fun _ => ⟨_, _, _, _, large_chain _ 96 _ (by decide) (by decide), fun _ => rfl, ?_⟩⟩
  intro h _
  exact absurd (h 1 (by decide)) (by decide +kernel)

/-- Place 2 of R805: 3.0^63, every base power below 2^64 but the result's exponent at least 64. -/
theorem witness_PowCommand_place2 : 64 ≤ (largeR (3 * 2 ^ 64) 65 63 128).2 ∧ ∀ j ≤ 5, (largeT (3 * 2 ^ 64) 65 j).2 < 64 := by
  decide +kernel

/-- The magnitude of 2.0^63 and of (-2.0)^63 is 2^127: place 3 of R805 for the first, MIN for the second. -/
theorem witness_PowCommand_place3 : PowMagnitude (2 * 2 ^ 64) 63 (some (2 ^ 127)) := by
  refine ⟨fun h => absurd h (by decide), fun _ => ⟨_, _, _, _, large_chain _ 65 _ (by decide) (by decide), ?_, ?_⟩⟩
  · rintro (⟨j, hj, hs⟩ | h)
    · have : j < 6 := by
        by_contra hc
        exact hj (Nat.div_eq_of_lt (Nat.lt_of_lt_of_le (by decide : 63 < 2 ^ 6) (Nat.pow_le_pow_right (by decide) (by omega))))
      have h6 : ∀ j < 6, (largeT (2 * 2 ^ 64) 65 j).2 < 64 := by decide +kernel
      exact absurd (h6 j this) (by simpa using hs)
    · exact absurd h (by decide +kernel)
  · intro _ _
    decide +kernel

/-- The signs and parities of POW's clauses, and a magnitude of 2^127 or more only for a positive result (place 3). -/
theorem witness_PowCommand_signs :
    ((with2 1 (-0x20000000000000000) 2 63).reg 1).toInt < 0 ∧ ((with2 1 (-0x20000000000000000) 2 63).reg 2).toNat % 2 = 1 ∧
    ¬ (((with2 1 0x20000000000000000 2 63).reg 1).toInt < 0 ∧ ((with2 1 0x20000000000000000 2 63).reg 2).toNat % 2 = 1) ∧
    ¬ (((with2 1 (-0x20000000000000000) 2 62).reg 1).toInt < 0 ∧ ((with2 1 (-0x20000000000000000) 2 62).reg 2).toNat % 2 = 1) := by
  decide +kernel

theorem witness_AvgWithoutWideSum : ∃ t, exec (.avg 5 1 2) (with2 1 7 2 9) = .next t := ⟨_, rfl⟩

theorem witness_GavgZeroAndOverflow :
    ((with2 1 0 2 (-7)).reg 1).toInt = 0 ∧ ((with2 1 (-7) 2 0).reg 2).toInt = 0 ∧
    0 ≤ ((with2 1 (-2 ^ 127) 2 (-2 ^ 127)).reg 1).toInt * ((with2 1 (-2 ^ 127) 2 (-2 ^ 127)).reg 2).toInt ∧
    0 ≤ ((with2 1 (2 ^ 127 - 1) 2 (2 ^ 127 - 1)).reg 1).toInt * ((with2 1 (2 ^ 127 - 1) 2 (2 ^ 127 - 1)).reg 2).toInt := by
  decide +kernel

theorem witness_MulOfNegatedOperand : (3 * 2 ^ 63 : Int) % 2 ^ 64 ≠ 0 ∧ mulRule 3 (2 ^ 63) = .ok 1 := by decide +kernel

theorem witness_DivOfMulRoundTrip :
    MIN ≤ -2 ^ 127 ∧ (-2 ^ 127 : Int) ≤ MAX ∧ (2 ^ 64 : Int) ≤ |2 ^ 64| ∧ mulRule (-2 ^ 127) (2 ^ 64) = .ok (-2 ^ 127) := by
  decide +kernel

theorem witness_SqrtBounds :
    (0 : Int) ≤ 0 ∧ (2 ^ 127 - 1 : Int) ≤ MAX ∧ mulRule (-0x30000000000000000) (-0x30000000000000000) = .ok 0x90000000000000000 := by
  decide +kernel

theorem witness_Log2OfPowersOfTwo :
    ((with1 1 1).reg 1).toInt = 2 ^ 0 ∧ ((with1 1 (2 ^ 126)).reg 1).toInt = 2 ^ 126 := by
  decide +kernel

theorem witness_Log2Range : (0 : Int) < 1 ∧ (2 ^ 127 - 1 : Int) ≤ MAX := by decide +kernel

/-- EXP2's accumulators, run. -/
def exp2R (x : Int) : Nat → Nat
  | 0 => 2 ^ 127
  | j + 1 => if x / 2 ^ (64 - (j + 1)) % 2 = 1 then exp2R x j * exp2Const (j + 1) / 2 ^ 128 else exp2R x j

theorem witness_Exp2AccumulatorBounds (x : Int) : Exp2Accumulators x (exp2R x) := by
  refine ⟨rfl, ?_⟩
  intro k h1 _
  obtain ⟨j, rfl⟩ : ∃ j, k = j + 1 := ⟨k - 1, by omega⟩
  rfl

theorem witness_Exp2Fits : (63 * 2 ^ 64 - 1 : Int) < 63 * 2 ^ 64 ∧ (63 * 2 ^ 64 : Int) ≤ 63 * 2 ^ 64 := by decide +kernel

theorem witness_Exp2OfIntegers :
    ((with1 1 (-63 * 2 ^ 64)).reg 1).toInt = -63 * 2 ^ 64 ∧
    ((with1 1 (62 * 2 ^ 64)).reg 1).toInt = 62 * 2 ^ 64 := by decide +kernel

theorem witness_ExpUnderflowBoundary : (-0x2C5C85FDF473DE6B01 : Int) ≤ -0x2C5C85FDF473DE6B01 := by decide

theorem witness_ExpOverflowBoundary :
    (0x2BAB13E5FCA20EF156 : Int) ≤ 0x2BAB13E5FCA20EF156 ∧ (0x2BAB13E5FCA20EF155 : Int) < 0x2BAB13E5FCA20EF156 := by decide

theorem witness_Exp2TableIsExactFloor : (1 : Nat) ≤ 1 ∧ (64 : Nat) ≤ 64 := by decide

theorem witness_PowSpecialCases :
    ((with2 1 0 2 0).reg 2).toNat = 0 ∧ ((with2 1 0 2 1).reg 1).toInt = 0 ∧ 0 < ((with2 1 0 2 1).reg 2).toNat ∧
    ((with2 1 (-2 ^ 127) 2 1).reg 2).toNat = 1 := by decide +kernel

theorem witness_PowSign :
    powRule (2 * 2 ^ 64) 3 = .ok (8 * 2 ^ 64) ∧ 3 % 2 = 1 ∧ powRule (2 * 2 ^ 64) 10 = .ok (1024 * 2 ^ 64) ∧ 10 % 2 = 0 := by
  decide +kernel

/-- The two start ranges at their ends, a step's ranges at theirs, and a magnitude of 2^127. -/
theorem witness_PowDatapathBounds :
    2 ^ 64 ≤ 2 ^ 64 ∧ 2 ^ 64 < 2 ^ 64 + 1 ∧ 2 ^ 127 ≤ 2 ^ 127 ∧
    (2 ^ 127 ≤ (Scaled.mk (2 ^ 128) 0).mant ∧ (Scaled.mk (2 ^ 128) 0).mant ≤ 2 ^ 128) ∧
    (2 ^ 127 ≤ (Scaled.mk (2 ^ 128 - 1) 63).mant ∧ (Scaled.mk (2 ^ 128 - 1) 63).mant < 2 ^ 128) ∧
    powMagnitude (2 ^ 127) 1 = .ok (2 ^ 127) := by decide +kernel

/-- A state whose host has the given accesses pending; its ERR is 1. -/
def pending (l : List BusEvent) : State := { with1 1 7 with err := true, bus := l }

theorem witness_ResetAbandonsCommand :
    (pending [.reset (some 0x04000000), .read 32 0]).bus = .reset (some 0x04000000) :: [.read 32 0] ∧
    (pending []).cfg.uninit = .resetValue ∧ (otherParams (pending [.reset none])).bus = .reset none :: [] := ⟨rfl, rfl, rfl⟩

/-- A CMD write of a legal and of an illegal word, and a table word. -/
theorem witness_StepRunsDecodedCommand :
    (pending [.write 32 0x100 0x01210000]).bus =
      .write 32 ((pending [.write 32 0x100 0x01210000]).cfg.fxuBase + 0x100) 0x01210000 :: [] ∧
    decode 0x01210000#32 = .ok (.abs 2 1) ∧ decode 0x01211000#32 = .error .rs2InRU ∧
    decodeTableWord 32 0x01210000 = some (.abs 2 1) := ⟨rfl, by decide, by decide, by decide⟩

/-- Words of F0 and F15, the first and the last of the window's registers. -/
theorem witness_RegisterWordWrite :
    (pending [.write 32 0 9]).bus = .write 32 ((pending [.write 32 0 9]).cfg.fxuBase + (16 * (0 : Reg).val + 4 * (0 : Fin 4).val)) 9 :: [] ∧
    (pending [.write 32 0xFC 9]).bus =
      .write 32 ((pending [.write 32 0xFC 9]).cfg.fxuBase + (16 * (15 : Reg).val + 4 * (3 : Fin 4).val)) 9 :: [] := ⟨rfl, rfl⟩

theorem witness_RegisterWordRead :
    7 / 4 = (1 : Fin 4).val ∧ State.reset.written[15][3] = false ∧
    (pending [.read 32 0xFC]).bus = .read 32 ((pending [.read 32 0xFC]).cfg.fxuBase + (16 * (15 : Reg).val + 4 * (3 : Fin 4).val)) :: [] :=
  ⟨rfl, rfl, rfl⟩

theorem witness_ControlRegisterReads :
    0x10C ≤ 0x10C ∧ 0x1FC < 0x200 ∧ 0x1FC % 4 = 0 ∧
    (pending [.read 32 0x1FC]).bus = .read 32 ((pending [.read 32 0x1FC]).cfg.fxuBase + 0x1FC) :: [] :=
  ⟨by decide, by decide, by decide, rfl⟩

theorem witness_ControlRegisterWrites :
    (0x100#32).getLsbD 8 = true ∧ (0xFFFFFEFF#32).getLsbD 8 = false ∧ 0x1FC ≠ 0x104 ∧
    (pending [.write 32 0x104 0x100]).bus = .write 32 ((pending [.write 32 0x104 0x100]).cfg.fxuBase + 0x104) 0x100 :: [] :=
  ⟨by decide, by decide, by decide, rfl⟩

theorem witness_RegisterReadAfterWrite : ((1 : Reg) ≠ 0 ∨ (3 : Fin 4) ≠ 3) ∧ ((0 : Reg) ≠ 0 ∨ (2 : Fin 4) ≠ 3) := by decide

/-- Every way R204 forbids, and an access it allows. -/
theorem witness_BadAccessHasNoStep :
    (16 ≠ 32) ∧ (0 < ({ pending [] with cfg := { Config.default with fxuBase := 4 } } : State).cfg.fxuBase) ∧
    (0x1FD - (pending [.read 32 0x1FD]).cfg.fxuBase) % 4 ≠ 0 ∧ 0x200 ≤ 0x200 - (pending [.read 32 0x200]).cfg.fxuBase ∧
    (∃ t, step (pending [.read 32 0x1FC]) = .next t) := ⟨by decide, by decide, by decide, by decide, _, rfl⟩

theorem witness_IdleKeepsState : State.reset.bus = [] := rfl

/-- A command that completes and one that ends in error, rd one of the sources. -/
theorem witness_CommandFrame :
    (∃ t, exec (.div 2 1 2) (with2 1 7 2 9) = .next t ∧ t.code = 0) ∧
    (∃ t, exec (.div 2 1 2) (with2 1 7 2 0) = .next t ∧ t.code ≠ 0) := by
  constructor <;> exact next_with (by decide +kernel)

/-- One word of F1 written, three not. -/
theorem witness_UnwrittenSourceEndsRun :
    decode 0x01010000#32 = .ok (.abs 0 1) ∧
    ∃ r ∈ (Instr.abs 0 1).sources, ∃ j : Fin 4, (State.reset.writeRegWord 1 0 5).written[r.val][j.val] = false :=
  ⟨by decide, 1, by decide, 3, by decide⟩

/-- Written sources with a command that completes and one that ends in error, and an illegal word. -/
theorem witness_RunFollowsHostDiscipline :
    decode 0x06010000#32 = .ok (.inv 0 1) ∧ (∀ r ∈ (Instr.inv 0 1).sources, ∀ j : Fin 4, (with1 1 7).written[r.val][j.val] = true) ∧
    (∃ t, exec (.inv 0 1) (with1 1 7) = .next t ∧ t.code = 0) ∧ (∃ t, exec (.inv 0 1) (with1 1 0) = .next t ∧ t.code ≠ 0) ∧
    decode 0x18080000#32 = .error .constIndex :=
  ⟨by decide, by decide +kernel, next_with (by decide +kernel), next_with (by decide +kernel), by decide⟩

/-- Two states that differ in ERR, ECMD and the destination, and agree on the source. -/
theorem witness_CommandDependsOnSourcesOnly :
    (with1 1 7).cfg = ({ with2 1 7 0 3 with err := true, ecmd := 5 } : State).cfg ∧
    (∀ r ∈ (Instr.abs 0 1).sources, (with1 1 7).reg r = ({ with2 1 7 0 3 with err := true, ecmd := 5 } : State).reg r) ∧
    (∃ t, exec (.abs 0 1) (with1 1 7) = .next t ∧ t.code = 0) ∧
    ∃ t, exec (.abs 0 1) { with2 1 7 0 3 with err := true, ecmd := 5 } = .next t ∧ t.code = 0 :=
  ⟨rfl, by decide +kernel, next_with (by decide +kernel), next_with (by decide +kernel)⟩

/-- ERR is 1 and the step serves a command, a write that clears it, or a reset. -/
theorem witness_ErrIsSticky :
    (pending []).err = true ∧ (∃ t, step (pending [.write 32 0x100 0x01210000]) = .next t ∧ t.err = true) ∧
    (∃ t, step (pending [.write 32 0x104 0x100]) = .next t ∧ t.err = false) ∧
    ∃ t, step (pending [.reset none]) = .next t ∧ t.err = false :=
  ⟨rfl, next_with (by decide +kernel), next_with (by decide +kernel), next_with (by decide +kernel)⟩

/-- CODE 0; CODE 6 with an illegal ECMD; CODE 2 with a DIV in ECMD; and a step from each. -/
theorem witness_ErrorRecordInvariant :
    ErrorRecordOk (pending []) ∧ ErrorRecordOk { pending [] with code := 6, ecmd := 0 } ∧
    ErrorRecordOk { pending [.write 32 0x100 0x06210000] with code := 2, ecmd := 0x05201000 } ∧
    (∃ t, step { pending [.write 32 0x100 0x06210000] with code := 2, ecmd := 0x05201000 } = .next t ∧ t.code = 0) ∧
    ∃ t, step (pending [.write 32 0x100 0x18080000]) = .next t ∧ t.code = 6 :=
  ⟨.inl rfl, .inr (.inl ⟨rfl, .unassignedOpcode, by decide⟩), .inr (.inr ⟨.div 2 0 1, .divisionByZero, by decide, rfl, rfl⟩),
    next_with (by decide +kernel), next_with (by decide +kernel)⟩

theorem witness_WrittenMarksOnlyGrow :
    (pending [.reset none]).written[1][3] = true ∧ (∃ t, step (pending [.write 32 0 9]) = .next t ∧ t.written[1][3] = true) ∧
    ∃ t, step (pending [.reset none]) = .next t ∧ t.written[1][3] = false :=
  ⟨rfl, next_with (by decide +kernel), next_with (by decide +kernel)⟩

theorem witness_StepKeepsConfiguration :
    (∃ t, step (pending [.read 32 0x104, .reset none]) = .next t ∧ t.resets = 0) ∧
    ∃ t, step (pending [.reset none]) = .next t ∧ t.resets = 1 :=
  ⟨next_with (by decide +kernel), next_with (by decide +kernel)⟩

theorem witness_AllowedAccessesNeverStop :
    NeverStops (pending [.write 32 0x1C 1, .write 32 0x100 0xFF000000, .reset none, .read 32 0x1FC]) :=
  by unfold NeverStops; decide +kernel

end Sys2Proof.Tests
end

section
/-! What the status word, the written marks and the registers are right after reset (R105, R113), and the obligation on the reset
state assembled from these facts. -/

namespace Sys2Proof.Machine

/-! ### STATUS and the written marks -/

theorem State.status_eq_zero {s : State} (herr : s.err = false) (hcode : s.code = 0) : s.status = 0 := by
  simp [State.status, herr, hcode]

@[simp] theorem nothingWritten_getElem (r : Reg) : nothingWritten[r.val] = Vector.replicate 4 false :=
  Vector.getElem_replicate r.isLt

theorem State.allWritten_of_nothingWritten {s : State} (h : s.written = nothingWritten) (r : Reg) : s.allWritten r = false := by
  simp [State.allWritten, h]

/-! ### The reset state -/

@[simp] theorem State.status_reset : State.reset.status = 0 := State.status_eq_zero rfl rfl

@[simp] theorem State.allWritten_reset (r : Reg) : State.reset.allWritten r = false := State.allWritten_of_nothingWritten rfl r

@[simp] theorem State.reg_reset (r : Reg) : State.reset.reg r = 0 := Vector.getElem_replicate r.isLt

/-- Settles O38: STATUS, the marks and the registers by the lemmas above; the other fields are the ones `State.reset` names. -/
theorem resetState : Obligations.ResetState :=
  ⟨State.status_reset, rfl, rfl, rfl, fun r => ⟨State.allWritten_reset r, State.reg_reset r⟩, rfl, rfl⟩

end Sys2Proof.Machine
end

section
/-! What a word that decodes says of its command (R301, R304, R307): the command is well formed and the word is its encoding. -/

namespace Sys2Proof

/-- The command an opcode builds encodes to the opcode's word, RS2 being 0 where the format has none (R302, R304). -/
theorem encode_build {o : Opcode} {rd s1 s2 : Fin 16} (h : o.format = .RR ∨ s2 = 0) :
    encode (o.build rd s1 s2) = encodeFields o rd s1 s2 := by
  cases o
  case avg | gavg | mul | div | pow => rfl
  all_goals
    obtain rfl := h.resolve_left nofun
    rfl

/-- Only LDC's constant index is checked (R305). -/
theorem wellFormed_build {o : Opcode} {rd s1 s2 : Fin 16} (h : o.format ≠ .RK ∨ s1.val < 8) :
    (o.build rd s1 s2).WellFormed = true := by
  cases o
  case ldc => exact decide_eq_true (h.resolve_left (fun hf => hf rfl))
  all_goals rfl

/-- What the field checks of R307 let through. -/
theorem decodeFields_eq_ok {o : Opcode} {rd s1 s2 : Fin 16} {i : Instr} (h : decodeFields o rd s1 s2 = .ok i) :
    i = o.build rd s1 s2 ∧ (o.format = .RR ∨ s2 = 0) ∧ (o.format ≠ .RK ∨ s1.val < 8) := by
  unfold decodeFields at h
  cases hf : o.format <;> simp only [hf] at h
  case RR => exact ⟨by injection h with h; exact h.symm, .inl rfl, .inl nofun⟩
  case RU =>
    split at h
    · cases h
    · exact ⟨by injection h with h; exact h.symm, .inr (by omega), .inl nofun⟩
  case RK =>
    split at h
    · cases h
    split at h
    · cases h
    · exact ⟨by injection h with h; exact h.symm, .inr (by omega), .inr (by omega)⟩

/-- What a word that decodes has passed (R305, R307). -/
theorem decode_eq_ok {w : Word} {i : Instr} (h : decode w = .ok i) :
    bitField w 0 12 = 0 ∧ ∃ o : Opcode, o.code = bitField w 24 8 ∧
      decodeFields o (nibble w 20) (nibble w 16) (nibble w 12) = .ok i := by
  unfold decode at h
  split at h
  · cases h
  split at h
  · cases h
  · rename_i hres _ o ho
    exact ⟨not_not.mp hres, o, code_of_ofCode ho, h⟩

theorem wellFormed_of_decode {w : Word} {i : Instr} (h : decode w = .ok i) : i.WellFormed = true := by
  obtain ⟨-, o, -, hfields⟩ := decode_eq_ok h
  obtain ⟨rfl, -, hk⟩ := decodeFields_eq_ok hfields
  exact wellFormed_build hk

/-- A word that decodes is the encoding of its command (R304). -/
theorem encode_of_decode {w : Word} {i : Instr} (h : decode w = .ok i) : encode i = w := by
  obtain ⟨hres, o, hop, hfields⟩ := decode_eq_ok h
  obtain ⟨rfl, hs2, -⟩ := decodeFields_eq_ok hfields
  rw [encode_build hs2, encodeFields_of_fields hop hres]

/-- The host's table row is decoded as the word the window carries (R203). -/
theorem decode_of_decodeTableWord {nbits n : Nat} {i : Instr} (h : decodeTableWord nbits n = some i) :
    decode (tableWord nbits n) = .ok i := by
  unfold decodeTableWord at h
  rw [decodeBytes_bytesOfWord] at h
  cases hd : decode (tableWord nbits n) with
  | ok i' => simpa [hd, Except.map] using h
  | error e => simp [hd, Except.map] at h

end Sys2Proof
end

section
/-! The errors each instruction rule can end with (R1001), one lemma per rule, and their sum over the commands,
`canRaise_of_outcome`. LN is the one that needs a bound: its product with LN2 always fits (R722), by LOG2's range (R704). -/

namespace Sys2Proof.Machine

theorem checkRange_error {v : Int} {e : ErrorKind} (h : checkRange v = .error e) : e = .overflow := by
  unfold checkRange at h
  split at h <;> cases h
  rfl

theorem absRule_error {x : Int} {e : ErrorKind} (h : absRule x = .error e) : e = .overflow := by
  unfold absRule at h
  split at h <;> cases h
  rfl

/-- A negative product raises the parameter's error, and only a result out of range raises Overflow (R423, R424). -/
theorem gavgRule_error {p : GavgSignError} {x y : Int} {e : ErrorKind} (h : gavgRule p x y = .error e) :
    e = gavgError p ∨ e = .overflow := by
  unfold gavgRule at h
  split at h
  · cases h; exact .inl rfl
  · exact .inr (checkRange_error h)

theorem divRule_error {x y : Int} {e : ErrorKind} (h : divRule x y = .error e) : e = .divisionByZero ∨ e = .overflow := by
  unfold divRule at h
  split at h
  · cases h; exact .inl rfl
  · exact .inr (checkRange_error h)

theorem invRule_error {x : Int} {e : ErrorKind} (h : invRule x = .error e) : e = .divisionByZero ∨ e = .overflow := by
  unfold invRule at h
  split at h
  · cases h; exact .inl rfl
  · exact .inr (checkRange_error h)

theorem sqrtRule_error {x : Int} {e : ErrorKind} (h : sqrtRule x = .error e) : e = .negativeInput := by
  unfold sqrtRule at h
  split at h <;> cases h
  rfl

theorem log2Rule_error {x : Int} {e : ErrorKind} (h : log2Rule x = .error e) : e = .nonPositiveInput := by
  unfold log2Rule at h
  split at h <;> cases h
  rfl

theorem exp2Rule_error {x : Int} {e : ErrorKind} (h : exp2Rule x = .error e) : e = .overflow := by
  unfold exp2Rule at h
  split at h
  · cases h; rfl
  split at h <;> cases h

theorem expRule_error {x : Int} {e : ErrorKind} (h : expRule x = .error e) : e = .overflow := by
  unfold expRule at h
  split at h
  · cases h
  split at h
  · exact exp2Rule_error h
  · rename_i hm
    cases h
    exact checkRange_error hm

theorem toIntRule_ok (p : ToIntRounding) (x : Int) : ∃ v, toIntRule p x = .ok v := by
  cases p <;> exact ⟨_, rfl⟩

/-- The ROM has an entry at every index below 8 (R108). -/
theorem ldcRule_ok {k : Fin 16} (h : k.val < 8) : ∃ v, ldcRule k = .ok v := by
  have hrom : ∀ k : Fin 16, k.val < 8 → (constRom k).isSome = true := by decide
  obtain ⟨v, hv⟩ := Option.isSome_iff_exists.mp (hrom k h)
  exact ⟨v, by rw [ldcRule, hv]⟩

/-! ### POW -/

theorem powLargeLoop_error {n : Nat} : ∀ {r t : Scaled} {k : Nat} {e : ErrorKind},
    powLargeLoop n r t k = .error e → e = .overflow := by
  induction n with
  | zero => intro r t k e h; cases h
  | succ n ih =>
    intro r t k e h
    rw [powLargeLoop] at h
    split at h
    · cases h
    split at h
    · cases h; rfl
    · exact ih h

theorem powMagnitude_error {m n : Nat} {e : ErrorKind} (h : powMagnitude m n = .error e) : e = .overflow := by
  unfold powMagnitude at h
  split at h
  · cases h
  split at h
  · split at h <;> cases h
    rfl
  · rename_i hl
    cases h
    exact powLargeLoop_error hl

theorem powRule_error {x : Int} {n : Nat} {e : ErrorKind} (h : powRule x n = .error e) : e = .overflow := by
  unfold powRule at h
  split at h
  · rename_i hm
    cases h
    exact powMagnitude_error hm
  split at h
  all_goals
    split at h <;> cases h
    rfl

/-! ### LOG2 and LN -/

/-- A mantissa's square emits at most one bit, and what is kept is again a mantissa (R703). -/
theorem mantissa_square {m : Nat} (h : m < 2 ^ 128) :
    (m * m) >>> 255 ≤ 1 ∧ (m * m) >>> (127 + (m * m) >>> 255) < 2 ^ 128 := by
  have hsq : m * m < 2 ^ 256 := by nlinarith
  have hbit : (m * m) >>> 255 ≤ 1 := by rw [Nat.shiftRight_eq_div_pow]; omega
  refine ⟨hbit, ?_⟩
  obtain h0 | h1 : (m * m) >>> 255 = 0 ∨ (m * m) >>> 255 = 1 := by omega
  · rw [h0]
    rw [Nat.shiftRight_eq_div_pow] at h0 ⊢
    omega
  · rw [h1, Nat.shiftRight_eq_div_pow]
    omega

theorem log2Fraction_lt (i : Nat) : ∀ {m : Nat}, m < 2 ^ 128 → log2Fraction i m < 2 ^ i := by
  induction i with
  | zero => intro m _; exact Nat.one_pos
  | succ i ih =>
    intro m hm
    obtain ⟨hbit, hm'⟩ := mantissa_square hm
    have hrest := ih hm'
    have hfirst : 2 ^ i * ((m * m) >>> 255) ≤ 2 ^ i := by simpa using Nat.mul_le_mul_left (2 ^ i) hbit
    rw [log2Fraction, pow_succ]
    omega

/-- The bit scan shifts a positive number below 2^127 up to a mantissa (R701). -/
theorem mantissa_lt {n : Nat} (h0 : 0 < n) (h : n < 2 ^ 127) : msb n ≤ 126 ∧ n <<< (127 - msb n) < 2 ^ 128 := by
  obtain ⟨hlo, hhi⟩ := msb_spec h0
  have hk : msb n < 127 := (Nat.pow_lt_pow_iff_right (a := 2) (by decide)).mp (lt_of_le_of_lt hlo h)
  refine ⟨by omega, ?_⟩
  calc n <<< (127 - msb n) = n * 2 ^ (127 - msb n) := Nat.shiftLeft_eq _ _
    _ < 2 ^ (msb n + 1) * 2 ^ (127 - msb n) := Nat.mul_lt_mul_of_pos_right hhi (by positivity)
    _ = 2 ^ 128 := by rw [← pow_add]; congr 1; omega

/-- LOG2's result lies in [-64·2^64, 63·2^64) (R704). -/
theorem log2Rule_range {x v : Int} (hx : x ≤ MAX) (h : log2Rule x = .ok v) : -(64 * 2 ^ 64) ≤ v ∧ v < 63 * 2 ^ 64 := by
  unfold log2Rule at h
  split at h
  · cases h
  · rename_i hpos
    obtain ⟨hk, hm⟩ := mantissa_lt (n := x.toNat) (by omega) (by simp only [MAX] at hx; omega)
    have hfrac := log2Fraction_lt 64 hm
    injection h with h
    simp only [shl] at h
    omega

/-- The product with LN2 of a value in LOG2's range fits, so LN adds no error of its own (R722). -/
theorem lnRule_error {x : Int} {e : ErrorKind} (hx : x ≤ MAX) (h : lnRule x = .error e) : e = .nonPositiveInput := by
  unfold lnRule at h
  split at h
  · rename_i l hl
    obtain ⟨hlo, hhi⟩ := log2Rule_range hx hl
    have hfits : MIN ≤ shr (l * LN2_RAW) 64 ∧ shr (l * LN2_RAW) 64 ≤ MAX := by
      simp only [shr, LN2_RAW, MIN, MAX]
      omega
    rw [mulRule, checkRange_of_fits hfits] at h
    cases h
  · rename_i hl
    cases h
    exact log2Rule_error hl

/-! ### The commands -/

/-- A well-formed command ends only with an error R1001 lists for it. -/
theorem canRaise_of_outcome {c : Config} {i : Instr} {f : Reg → Raw} {e : ErrorKind} (hi : i.WellFormed = true)
    (h : outcome c i f = .error e) : canRaise c e i = true := by
  cases i <;> simp only [outcome] at h
  case abs => cases absRule_error h; rfl
  case avg => cases h
  case gavg =>
    obtain rfl | rfl := gavgRule_error h
    · cases hp : c.gavgSignError <;> simp [gavgError, canRaise, hp]
    · rfl
  case mul => cases checkRange_error h; rfl
  case div => obtain rfl | rfl := divRule_error h <;> rfl
  case inv => obtain rfl | rfl := invRule_error h <;> rfl
  case sqrt => cases sqrtRule_error h; rfl
  case log2 => cases log2Rule_error h; rfl
  case ln => cases lnRule_error (sval_range _).2 h; rfl
  case exp2 => cases exp2Rule_error h; rfl
  case exp => cases expRule_error h; rfl
  case pow => cases powRule_error h; rfl
  case fromint => cases checkRange_error h; rfl
  case toint =>
    obtain ⟨v, hv⟩ := toIntRule_ok c.toIntRounding (sval (f _))
    cases hv.symm.trans h
  case ldc =>
    obtain ⟨v, hv⟩ := ldcRule_ok (of_decide_eq_true hi)
    cases hv.symm.trans h

end Sys2Proof.Machine
end

section
/-! The error record (R105, R106, R1001): every step keeps CODE and ECMD in agreement. -/

namespace Sys2Proof.Machine

/-- The record is CODE, ECMD and the parameters; what leaves these keeps it. -/
theorem ErrorRecordOk.of_eq {s t : State} (hs : ErrorRecordOk s) (hcode : t.code = s.code) (hecmd : t.ecmd = s.ecmd)
    (hcfg : t.cfg = s.cfg) : ErrorRecordOk t := by
  simpa only [ErrorRecordOk, hcode, hecmd, hcfg] using hs

/-- A command sets the record right, whatever it was. -/
theorem exec_errorRecordOk {w : Word} {i : Instr} {s t : State} (hi : decode w = .ok i) (h : exec i s = .next t) :
    ErrorRecordOk t := by
  rw [exec_next h]
  cases ho : outcome s.cfg i s.reg with
  | ok v => exact .inl rfl
  | error e =>
    have hecmd : decode (encode i) = .ok i := by rw [encode_of_decode hi, hi]
    exact .inr (.inr ⟨i, e, hecmd, rfl, canRaise_of_outcome (wellFormed_of_decode hi) ho⟩)

theorem hostWrite_keeps_errorRecordOk {off : Nat} {v : Word} {s t : State} (hs : ErrorRecordOk s)
    (h : hostWrite off v s = .next t) : ErrorRecordOk t := by
  obtain ⟨-, rfl⟩ | ⟨-, hillegal, rfl⟩ | ⟨-, i, hi, hexec⟩ | ⟨-, rfl⟩ | ⟨-, rfl⟩ | ⟨-, rfl⟩ := hostWrite_next h
  · exact hs.of_eq rfl rfl rfl
  · exact .inr (.inl ⟨rfl, hillegal⟩)
  · exact exec_errorRecordOk hi hexec
  · exact hs.of_eq (by simp) (by simp) (by simp)
  · exact hs
  · exact hs

theorem step_keeps_errorRecordOk {s t : State} (hs : ErrorRecordOk s) (h : step s = .next t) : ErrorRecordOk t := by
  obtain ⟨-, rfl⟩ | ⟨ev, rest, -, ⟨_, _, _, -, -, rfl⟩ | ⟨_, _, _, _, -, -, hwrite⟩ | ⟨_, -, rfl⟩⟩ := step_next h
  · exact hs
  · exact hs.of_eq rfl rfl rfl
  · have hserved : ErrorRecordOk { s with bus := rest } := hs.of_eq rfl rfl rfl
    exact hostWrite_keeps_errorRecordOk hserved hwrite
  · exact .inl rfl

/-- Settles O53: CODE and ECMD are written only by a command, which writes both, and by reset. -/
theorem errorRecordInvariant : Obligations.ErrorRecordInvariant :=
  fun _ _ hs h => step_keeps_errorRecordOk hs h

/-! ### The codes -/

theorem ErrorKind.code_ne_zero (e : ErrorKind) : e.code ≠ 0 := by cases e <;> decide

theorem ErrorKind.code_le_six (e : ErrorKind) : e.code.toNat ≤ 6 := by cases e <;> decide

/-- Settles O54: reset has CODE 0, and every case of the record names CODE 0 or the code of an error. -/
theorem errorRecordAtReset : Obligations.ErrorRecordAtReset := by
  refine ⟨.inl rfl, fun s hs => ?_⟩
  obtain h | ⟨h, -⟩ | ⟨_, e, -, h, -⟩ := hs <;> rw [h]
  · exact Nat.zero_le 6
  · exact le_rfl
  · exact e.code_le_six

end Sys2Proof.Machine
end

section
/-! What a command reads, changes and leaves unchanged (R103, R112, R310, R1003 to R1006), and how a program's run meets an
unwritten source (R104, R1012). -/

namespace Sys2Proof.Machine

open Sys2Proof.Spec

/-! ### The frame of a command -/

theorem allWritten_complete_self (s : State) (rd : Reg) (v : Int) : (s.complete rd v).allWritten rd = true := by
  simp [allWritten_iff]

theorem hostSideKept_finish (s : State) (w : Word) (rd : Reg) (r : CmdResult) : HostSideKept s (s.finish w rd r) :=
  ⟨State.cfg_finish s w rd r, State.bus_finish s w rd r, State.readData_finish s w rd r, State.resets_finish s w rd r⟩

/-- A command that ends in error is all R1006 says. -/
theorem failed_raiseError (s : State) (e : ErrorKind) (w : Word) : Failed s (s.raiseError e w) e.code w :=
  ⟨fun _ => rfl, rfl, rfl, rfl, rfl, hostSideKept_finish s w 0 (.error e)⟩

/-- Settles O48: a command is `finish`, which completes with CODE 0 or raises an error with CODE 1 to 6. -/
theorem commandFrame : Obligations.CommandFrame := by
  intro i s
  refine ⟨_, exec_eq i s, ?_⟩
  cases outcome s.cfg i s.reg with
  | ok v =>
    exact ⟨fun q hq => ⟨reg_complete_ne s v hq, written_complete_ne s v hq⟩,
      fun _ => ⟨allWritten_complete_self s i.dest v, rfl, rfl⟩, fun hc => absurd rfl hc, Nat.zero_le 6,
      hostSideKept_finish s (encode i) i.dest (.ok v)⟩
  | error e =>
    exact ⟨fun _ _ => ⟨rfl, rfl⟩, fun hc => absurd hc e.code_ne_zero, fun _ => ⟨rfl, rfl, rfl, rfl⟩, e.code_le_six,
      hostSideKept_finish s (encode i) i.dest (.error e)⟩

/-! ### What a command reads -/

/-- A command reads no register but its sources (R310). -/
theorem outcome_congr (c : Config) {i : Instr} {f g : Reg → Raw} (h : ∀ r ∈ i.sources, f r = g r) :
    outcome c i f = outcome c i g := by
  cases i
  case avg rd a b | gavg rd a b | mul rd a b | div rd a b | pow rd a b =>
    have ha : f a = g a := h a (by simp [Instr.sources])
    have hb : f b = g b := h b (by simp [Instr.sources])
    simp only [outcome, ha, hb]
  case ldc => rfl
  case abs rd a | inv rd a | sqrt rd a | log2 rd a | ln rd a | exp2 rd a | exp rd a | fromint rd a | toint rd a =>
    have ha : f a = g a := h a (by simp [Instr.sources])
    simp only [outcome, ha]

/-- Settles O51: the outcome is the same by `outcome_congr`, and it alone gives CODE and the result. -/
theorem commandDependsOnSourcesOnly : Obligations.CommandDependsOnSourcesOnly := by
  intro i s s' hcfg hregs
  refine ⟨_, _, exec_eq i s, exec_eq i s', ?_⟩
  rw [← hcfg, outcome_congr s.cfg hregs]
  cases outcome s.cfg i s'.reg with
  | ok v =>
    refine ⟨rfl, fun _ => ?_⟩
    rw [State.finish_ok, State.finish_ok, reg_complete_self, reg_complete_self]
  | error e => exact ⟨rfl, fun hc => absurd hc e.code_ne_zero⟩

/-! ### A program's run -/

theorem allWritten_eq_false_iff (s : State) (r : Reg) :
    s.allWritten r = false ↔ ∃ j : Fin 4, s.written[r.val][j.val] = false := by
  rw [← Bool.not_eq_true, allWritten_iff]
  simp

theorem runProgram_of_uninitRead {s : State} {w : Word} {r : Reg} (h : s.uninitRead w = some r) (ws : List Word) (pc : Nat) :
    runProgram (w :: ws) pc s = .uninitRead pc r := by
  simp only [runProgram, h]

/-- Settles O49: the run ends with the register `uninitRead` names, an unwritten source of the command. -/
theorem unwrittenSourceEndsRun : Obligations.UnwrittenSourceEndsRun := by
  intro i w ws pc s hdec ⟨q, hq, hunwritten⟩
  have hsome : (s.uninitRead w).isSome = true :=
    (uninitRead_isSome_iff s w).mpr ⟨i, hdec, q, hq, (allWritten_eq_false_iff s q).mpr hunwritten⟩
  obtain ⟨r, hr⟩ := Option.isSome_iff_exists.mp hsome
  obtain ⟨i', hdec', hmem, hr'⟩ := uninitRead_some hr
  obtain rfl : i = i' := by simpa [hdec] using hdec'
  exact ⟨r, hmem, (allWritten_eq_false_iff s r).mp hr', runProgram_of_uninitRead hr ws pc⟩

end Sys2Proof.Machine
end

section
/-! What outlasts a step: ERR, but for a STATUS write that clears it and reset (R105, R1009), and the written marks, but for
reset (R104). -/

namespace Sys2Proof.Machine

/-! ### ERR -/

theorem writeStatus_of_set {v : Word} (h : v.getLsbD 8 = true) (s : State) : s.writeStatus v = { s with err := false } :=
  if_pos h

theorem writeStatus_of_clear {v : Word} (h : v.getLsbD 8 = false) (s : State) : s.writeStatus v = s :=
  if_neg (Bool.not_eq_true _ ▸ h)

theorem err_exec {i : Instr} {s t : State} (herr : s.err = true) (h : exec i s = .next t) : t.err = true := by
  rw [exec_next h]
  cases outcome s.cfg i s.reg with
  | ok v => exact herr
  | error e => rfl

theorem err_hostWrite {off : Nat} {v : Word} {s t : State} (herr : s.err = true) (h : hostWrite off v s = .next t) :
    t.err = true ∨ (off = offSTATUS ∧ v.getLsbD 8 = true) := by
  obtain ⟨-, rfl⟩ | ⟨-, -, rfl⟩ | ⟨-, i, -, hexec⟩ | ⟨hoff, rfl⟩ | ⟨-, rfl⟩ | ⟨-, rfl⟩ := hostWrite_next h
  · exact .inl herr
  · exact .inl rfl
  · exact .inl (err_exec herr hexec)
  · cases hv : v.getLsbD 8
    · exact .inl (by rw [writeStatus_of_clear hv, herr])
    · exact .inr ⟨hoff, rfl⟩
  · exact .inl herr
  · exact .inl herr

/-- Settles O52: of the events a step serves, only the two it names clear ERR. -/
theorem errIsSticky : Obligations.ErrIsSticky := by
  intro s t herr h
  obtain ⟨-, rfl⟩ | ⟨ev, rest, hbus, ⟨_, _, _, -, -, rfl⟩ | ⟨_, _, v, _, rfl, hoff, hwrite⟩ | ⟨w, rfl, -⟩⟩ := step_next h
  · exact .inl herr
  · exact .inl herr
  · obtain ht | ⟨rfl, hv⟩ := err_hostWrite (s := { s with bus := rest }) herr hwrite
    · exact .inl ht
    · obtain ⟨rfl, rfl, -, -⟩ := accessOffset_eq_some.mp hoff
      exact .inr (.inl ⟨v, rest, hbus, hv⟩)
  · exact .inr (.inr ⟨w, rest, hbus⟩)

/-! ### Written marks -/

theorem written_complete_of_written {s : State} {q : Reg} {j : Fin 4} (hq : s.written[q.val][j.val] = true) (rd : Reg) (v : Int) :
    (s.complete rd v).written[q.val][j.val] = true := by
  by_cases h : q = rd
  · subst h
    exact (allWritten_iff _ q).mp (allWritten_complete_self s q v) j
  · rw [written_complete_ne s v h, hq]

theorem written_exec {i : Instr} {s t : State} {q : Reg} {j : Fin 4} (hq : s.written[q.val][j.val] = true)
    (h : exec i s = .next t) : t.written[q.val][j.val] = true := by
  rw [exec_next h]
  cases outcome s.cfg i s.reg with
  | ok v => exact written_complete_of_written hq i.dest v
  | error e => exact hq

theorem written_hostWrite {off : Nat} {v : Word} {s t : State} {q : Reg} {j : Fin 4} (hq : s.written[q.val][j.val] = true)
    (h : hostWrite off v s = .next t) : t.written[q.val][j.val] = true := by
  obtain ⟨-, rfl⟩ | ⟨-, -, rfl⟩ | ⟨-, i, -, hexec⟩ | ⟨-, rfl⟩ | ⟨-, rfl⟩ | ⟨-, rfl⟩ := hostWrite_next h
  · rw [written_writeRegWord_word, hq, ite_self]
  · exact hq
  · exact written_exec hq hexec
  · simpa using hq
  · exact hq
  · exact hq

/-- Settles O55: commands and word writes only add marks. -/
theorem writtenMarksOnlyGrow : Obligations.WrittenMarksOnlyGrow := by
  intro s t q j h hq
  obtain ⟨-, rfl⟩ | ⟨ev, rest, hbus, ⟨_, _, _, -, -, rfl⟩ | ⟨_, _, _, _, -, -, hwrite⟩ | ⟨w, rfl, -⟩⟩ := step_next h
  · exact .inl hq
  · exact .inl hq
  · exact .inl (written_hostWrite (s := { s with bus := rest }) hq hwrite)
  · exact .inr ⟨w, rest, hbus⟩

end Sys2Proof.Machine
end

section
/-! One event served at a time: reset (R1101, R1102), a CMD write (R107, R310), and what the host reads and writes at the offsets
of CMD, STATUS, ECMD and the reserved words (R105, R106, R213). -/

namespace Sys2Proof.Machine

open Sys2Proof.Spec

/-! ### Reset -/

theorem step_reset {s : State} {w : Option Word} {rest : List BusEvent} (h : s.bus = .reset w :: rest) :
    step s = .next ({ s with bus := rest } : State).resetUnit := by
  rw [step_of_event h, serve]

/-- Under the policy `resetValue` the reset input gives the registers of `State.reset` (log entry 1). -/
theorem resetRegisters_resetValue {s : State} (h : s.cfg.uninit = .resetValue) : s.resetRegisters = State.reset.F := by
  rw [State.resetRegisters, h]

/-- Settles O39: the step answers `resetUnit`, field by field. -/
theorem resetAbandonsCommand : Obligations.ResetAbandonsCommand := by
  intro s w rest hbus
  refine ⟨_, step_reset hbus, rfl, rfl, rfl, fun hp r => ?_, rfl, rfl, rfl, rfl, rfl⟩
  have hregs : ({ s with bus := rest } : State).resetRegisters = State.reset.F := resetRegisters_resetValue hp
  rw [State.reg, State.F_resetUnit, hregs, State.reg]

/-! ### A CMD write -/

theorem execute_of_ok {w : Word} {i : Instr} (h : decode w = .ok i) (s : State) : execute w s = exec i s := by
  simp only [execute, h]

theorem execute_of_error {w : Word} {e : DecodeError} (h : decode w = .error e) (s : State) :
    execute w s = .next (s.raiseError .illegalCommand w) := by
  simp only [execute, h]

theorem step_cmdWrite {s : State} {w : Word} {rest : List BusEvent} (h : s.bus = cmdWrite s w :: rest) :
    step s = execute w { s with bus := rest } := by
  rw [step_of_event h]
  exact serve_cmdWrite { s with bus := rest } w

/-- Settles O40: a CMD write is `execute`, which is the decoded command or IllegalCommand. -/
theorem stepRunsDecodedCommand : Obligations.StepRunsDecodedCommand := by
  refine ⟨fun s w i rest hbus hdec => ?_, fun s w e rest hbus hdec => ?_, fun s n i hdec => ?_⟩
  · rw [step_cmdWrite hbus, execute_of_ok hdec]
  · exact ⟨_, (step_cmdWrite hbus).trans (execute_of_error hdec _), failed_raiseError _ .illegalCommand w⟩
  · rw [step_withFetchWord, execute_of_ok (decode_of_decodeTableWord hdec)]

/-! ### Reads -/

theorem hostRead_bus (s : State) (rest : List BusEvent) (off : Nat) :
    ({ s with bus := rest } : State).hostRead off = s.hostRead off := rfl

theorem step_read {s : State} {off : Nat} {rest : List BusEvent} (hoff : off % 4 = 0) (hlt : off < 0x200)
    (h : s.bus = .read 32 (s.cfg.fxuBase + off) :: rest) :
    step s = .next { s with bus := rest, readData := some (s.hostRead off) } := by
  rw [step_of_event h, serve, accessOffset_bus, accessOffset_window s hoff hlt, ← hostRead_bus s rest]

theorem hostRead_cmd (s : State) : s.hostRead 0x100 = 0 := rfl

theorem hostRead_status (s : State) : s.hostRead 0x104 = s.status := rfl

theorem hostRead_ecmd (s : State) : s.hostRead 0x108 = s.ecmd := rfl

theorem hostRead_reserved (s : State) {off : Nat} (h : 0x10C ≤ off) : s.hostRead off = 0 := by
  have hreg : ¬ off < 0x100 := by omega
  have hcmd : off ≠ offCMD := by simp only [offCMD]; omega
  have hstatus : off ≠ offSTATUS := by simp only [offSTATUS]; omega
  have hecmd : off ≠ offECMD := by simp only [offECMD]; omega
  simp only [State.hostRead, hreg, hcmd, hstatus, hecmd, if_false]

/-- The STATUS word is `ERR << 8 | CODE` (R105): CODE has four bits, so the model's sum carries nowhere. -/
theorem status_eq_or (s : State) : s.status = (BitVec.ofBool s.err).setWidth 32 <<< 8 ||| s.code.setWidth 32 := by
  have hsum : ∀ (err : Bool) (code : BitVec 4), BitVec.ofNat 32 ((if err then 2 ^ 8 else 0) + code.toNat) =
      (BitVec.ofBool err).setWidth 32 <<< 8 ||| code.setWidth 32 := by decide
  exact hsum s.err s.code

/-- The bits of the STATUS word: CODE in the low four, ERR in bit 8 (R105). -/
theorem getLsbD_status (s : State) (n : Nat) :
    s.status.getLsbD n = ((decide (n = 8) && s.err) || s.code.getLsbD n) := by
  rw [status_eq_or, BitVec.getLsbD_or, BitVec.getLsbD_shiftLeft, BitVec.getLsbD_setWidth, BitVec.getLsbD_setWidth,
    BitVec.getLsbD_ofBool]
  obtain hlow | rfl | hhigh : n < 8 ∨ n = 8 ∨ 8 < n := by omega
  · simp [show n < 32 by omega, show n ≠ 8 by omega, hlow]
  · simp
  · have hcode : s.code.getLsbD n = false := BitVec.getLsbD_of_ge _ _ (by omega)
    simp [hcode, show n ≠ 8 by omega, show n - 8 ≠ 0 by omega]

/-- Settles O43: each offset by its own lemma, STATUS by its bits. -/
theorem controlRegisterReads : Obligations.ControlRegisterReads := by
  intro s
  refine ⟨hostRead_cmd s, hostRead_ecmd s, fun off h _ => hostRead_reserved s h, ?_, ?_, fun n h4 h8 => ?_,
    fun off rest hoff hlt hbus => step_read hoff hlt hbus⟩
  · apply BitVec.eq_of_getLsbD_eq
    intro n hn
    have h8 : n ≠ 8 := by omega
    rw [BitVec.getLsbD_extractLsb', hostRead_status, getLsbD_status]
    simp [hn, h8]
  · rw [hostRead_status, getLsbD_status, BitVec.getLsbD_of_ge s.code 8 (by decide)]
    simp
  · have hcode : s.code.getLsbD n = false := BitVec.getLsbD_of_ge _ _ h4
    rw [hostRead_status, getLsbD_status, hcode]
    simp [h8]

/-! ### Writes -/

theorem step_write {s : State} {off : Nat} {v : Word} {rest : List BusEvent} (hoff : off % 4 = 0) (hlt : off < 0x200)
    (h : s.bus = .write 32 (s.cfg.fxuBase + off) v :: rest) : step s = hostWrite off v { s with bus := rest } := by
  rw [step_of_event h, serve, accessOffset_bus, accessOffset_window s hoff hlt]

theorem hostWrite_status (v : Word) (s : State) : hostWrite 0x104 v s = .next (s.writeStatus v) := rfl

/-- A write above STATUS, to ECMD or a reserved offset, is ignored (R206). -/
theorem hostWrite_ignored {off : Nat} (h : 0x104 < off) (v : Word) (s : State) : hostWrite off v s = .next s := by
  have hreg : ¬ off < 0x100 := by omega
  have hcmd : off ≠ offCMD := by simp only [offCMD]; omega
  have hstatus : off ≠ offSTATUS := by simp only [offSTATUS]; omega
  simp only [hostWrite, hreg, hcmd, hstatus, if_false]

/-- Settles O44: the write is at STATUS or above it. -/
theorem controlRegisterWrites : Obligations.ControlRegisterWrites := by
  intro s off v rest hoff hlt hlow hbus
  rw [step_write hoff hlt hbus]
  obtain rfl | habove : off = 0x104 ∨ 0x104 < off := by omega
  · rw [hostWrite_status]
    refine ⟨fun _ hv => by rw [writeStatus_of_set hv], fun hv => ?_⟩
    rw [writeStatus_of_clear (hv.resolve_left (fun hne => hne rfl))]
  · exact ⟨fun heq => by omega, fun _ => hostWrite_ignored habove v _⟩

end Sys2Proof.Machine
end

section
/-! The command word seen from the decoder's side (R203, R304, R307). -/

namespace Sys2Proof

/-- Settles O3: `wellFormed_of_decode`, `encode_of_decode`, and the decoder on a word's bytes being the decoder on the word. -/
theorem encodeOfDecode : Obligations.EncodeOfDecode := by
  intro w i hdec
  refine ⟨wellFormed_of_decode hdec, encode_of_decode hdec, ?_⟩
  rw [decodeBytes_bytesOfWord, hdec, Except.map]

end Sys2Proof
end

section
/-! Which bus events the unit answers: every one R204 allows, with the parameters kept and the event taken off the list (R204,
R209, R1107); an access R204 forbids is the only refusal. -/

namespace Sys2Proof.Machine

open Sys2Proof.Spec

/-! ### Host writes -/

/-- Every command word ends (R1107): a legal one by `finish`, an illegal one in IllegalCommand. -/
theorem execute_answers (w : Word) (s : State) : ∃ t, execute w s = .next t := by
  cases hdec : decode w with
  | ok i => exact ⟨_, (execute_of_ok hdec s).trans (exec_eq i s)⟩
  | error e => exact ⟨_, execute_of_error hdec s⟩

theorem hostWrite_answers (off : Nat) (v : Word) (s : State) : ∃ t, hostWrite off v s = .next t := by
  unfold hostWrite
  split
  · exact ⟨_, rfl⟩
  split
  · exact execute_answers v s
  split
  · exact ⟨_, rfl⟩
  · exact ⟨_, rfl⟩

/-- No host write touches the model's own fields, whatever its offset. -/
theorem hostSideKept_hostWrite {off : Nat} {v : Word} {s t : State} (h : hostWrite off v s = .next t) : HostSideKept s t := by
  obtain ⟨-, rfl⟩ | ⟨-, -, rfl⟩ | ⟨-, i, -, hexec⟩ | ⟨-, rfl⟩ | ⟨-, rfl⟩ | ⟨-, rfl⟩ := hostWrite_next h
  · exact ⟨rfl, rfl, rfl, rfl⟩
  · exact ⟨rfl, rfl, rfl, rfl⟩
  · rw [exec_next hexec]
    exact hostSideKept_finish s _ _ _
  · exact ⟨State.cfg_writeStatus s v, State.bus_writeStatus s v, State.readData_writeStatus s v, State.resets_writeStatus s v⟩
  · exact ⟨rfl, rfl, rfl, rfl⟩
  · exact ⟨rfl, rfl, rfl, rfl⟩

/-! ### Serving an event -/

/-- The accesses R204 does not allow, and those below FXU_BASE (log entry 8). -/
theorem accessOffset_eq_none {s : State} {width addr : Nat} :
    s.accessOffset width addr = none ↔
      width ≠ 32 ∨ addr < s.cfg.fxuBase ∨ (addr - s.cfg.fxuBase) % 4 ≠ 0 ∨ 0x200 ≤ addr - s.cfg.fxuBase := by
  unfold State.accessOffset
  split
  · simp only [reduceCtorEq, false_iff]; omega
  · simp only [true_iff]; omega

theorem serve_of_allowed {s : State} {ev : BusEvent} (h : ev.allowed s = true) : ∃ t, serve ev s = .next t := by
  cases ev with
  | read width addr =>
    obtain ⟨off, hoff⟩ := Option.isSome_iff_exists.mp h
    exact ⟨_, by rw [serve, hoff]⟩
  | write width addr data =>
    obtain ⟨off, hoff⟩ := Option.isSome_iff_exists.mp h
    simpa only [serve, hoff] using hostWrite_answers off data s
  | reset o => exact ⟨_, rfl⟩

theorem serve_of_not_allowed {s : State} {ev : BusEvent} (h : ev.allowed s = false) : serve ev s = .refused .busError := by
  cases ev with
  | read width addr | write width addr data =>
    have hoff : s.accessOffset width addr = none := by simpa [BusEvent.allowed] using h
    rw [serve, hoff]
  | reset o => cases h

theorem serve_eq_busError_iff {s : State} {ev : BusEvent} : serve ev s = .refused .busError ↔ ev.allowed s = false := by
  refine ⟨fun h => ?_, serve_of_not_allowed⟩
  cases hallowed : ev.allowed s with
  | false => rfl
  | true =>
    obtain ⟨t, ht⟩ := serve_of_allowed hallowed
    rw [ht] at h
    cases h

/-- What is allowed depends on FXU_BASE alone. -/
theorem allowed_congr {s t : State} (hcfg : t.cfg = s.cfg) (ev : BusEvent) : ev.allowed t = ev.allowed s := by
  cases ev <;> simp only [BusEvent.allowed, State.accessOffset, hcfg]

/-- Settles O46: the unit refuses exactly the events that are not allowed, and an access is allowed by `accessOffset`. -/
theorem badAccessHasNoStep : Obligations.BadAccessHasNoStep := by
  intro s width addr v rest hbus
  obtain hbus | hbus := hbus
  all_goals
    rw [step_of_event hbus, serve_eq_busError_iff, BusEvent.allowed, accessOffset_bus, Option.isSome_eq_false_iff,
      Option.isNone_iff_eq_none, accessOffset_eq_none]

/-! ### Steps -/

/-- A step keeps the parameters and takes the first pending event off the list (R209; log entries 3 and 5). -/
theorem step_cfg_bus {s t : State} (h : step s = .next t) : t.cfg = s.cfg ∧ t.bus = s.bus.tail := by
  obtain ⟨hbus, rfl⟩ | ⟨ev, rest, hbus, ⟨_, _, _, -, -, rfl⟩ | ⟨_, _, _, _, -, -, hwrite⟩ | ⟨_, -, rfl⟩⟩ := step_next h
  · exact ⟨rfl, by rw [hbus, List.tail_nil]⟩
  · exact ⟨rfl, by rw [hbus, List.tail_cons]⟩
  · obtain ⟨hcfg', hbus', -, -⟩ := hostSideKept_hostWrite hwrite
    exact ⟨hcfg', by rw [hbus', hbus, List.tail_cons]⟩
  · exact ⟨rfl, by rw [hbus, List.tail_cons, State.bus_resetUnit]⟩

theorem NeverStops.step_answers {s : State} (hs : NeverStops s) : ∃ t, step s = .next t := by
  cases hbus : s.bus with
  | nil => exact ⟨s, step_of_idle hbus⟩
  | cons ev rest =>
    have hev : ev.allowed s = true := hs ev (by rw [hbus]; exact List.mem_cons_self)
    have hserved : ev.allowed { s with bus := rest } = true := by rw [← hev]; exact allowed_congr rfl ev
    rw [step_of_event hbus]
    exact serve_of_allowed hserved

theorem NeverStops.step_keeps {s t : State} (hs : NeverStops s) (h : step s = .next t) : NeverStops t := by
  obtain ⟨hcfg, hbus⟩ := step_cfg_bus h
  intro ev hev
  rw [hbus] at hev
  rw [allowed_congr hcfg]
  exact hs ev (List.mem_of_mem_tail hev)

theorem neverStops_reset : NeverStops State.reset := nofun

/-- Settles O57: progress by `NeverStops.step_answers`, preservation by `NeverStops.step_keeps`. -/
theorem allowedAccessesNeverStop : Obligations.AllowedAccessesNeverStop := by
  refine ⟨neverStops_reset, fun s hs => ?_⟩
  obtain ⟨t, ht⟩ := hs.step_answers
  exact ⟨t, ht, hs.step_keeps ht⟩

end Sys2Proof.Machine
end

section
/-! The register words in the window: which register and word an offset selects, and what a read returns after a write (R202, R203,
R205, R206, R213). -/

namespace Sys2Proof.Machine

/-! ### Offsets of register words -/

theorem regOfOffset_regWord (i : Reg) {b : Nat} (hb : b < 16) : regOfOffset (16 * i.val + b) = i := by
  ext
  simp only [regOfOffset]
  omega

theorem wordOfOffset_regWord (i : Reg) (j : Fin 4) : wordOfOffset (16 * i.val + 4 * j.val) = j := by
  ext
  simp only [wordOfOffset]
  omega

theorem hostRead_regWord (s : State) (i : Reg) (j : Fin 4) : s.hostRead (16 * i.val + 4 * j.val) = s.readRegWord i j := by
  have hreg : 16 * i.val + 4 * j.val < 0x100 := by omega
  rw [State.hostRead, if_pos hreg, regOfOffset_regWord i (by omega), wordOfOffset_regWord]

theorem hostWrite_regWord (i : Reg) (j : Fin 4) (v : Word) (s : State) :
    hostWrite (16 * i.val + 4 * j.val) v s = .next (s.writeRegWord i j v) := by
  have hreg : 16 * i.val + 4 * j.val < 0x100 := by omega
  rw [hostWrite, if_pos hreg, regOfOffset_regWord i (by omega), wordOfOffset_regWord]

/-- Settles O41: the step answers `writeRegWord`; its bits by `getLsbD_setRegWord`. -/
theorem registerWordWrite : Obligations.RegisterWordWrite := by
  intro s i j v rest hbus
  have hstep := (step_write (by omega) (by omega) hbus).trans (hostWrite_regWord i j v _)
  refine ⟨_, hstep, fun n hn => ?_, fun q hq => reg_writeRegWord_ne _ j v hq,
    fun q l => written_writeRegWord_word _ i q j l v, rfl, rfl, rfl, rfl, rfl, rfl, rfl⟩
  have hlt : n < 128 - 32 * j.val ↔ n ≤ 127 - 32 * j.val := by omega
  rw [reg_writeRegWord_self, getLsbD_setRegWord _ _ j.isLt v n hn]
  simp only [hlt, State.reg]

/-! ### Reads -/

/-- Byte c of word j is byte 4·j + c of the register, from the top (R203). -/
theorem extractLsb'_regWord (v : Raw) {j c : Nat} (hj : j < 4) (hc : c < 4) :
    (regWord v j).extractLsb' (24 - 8 * c) 8 = v.extractLsb' (120 - 8 * (4 * j + c)) 8 := by
  apply BitVec.eq_of_getLsbD_eq
  intro n hn
  have hin : 24 - 8 * c + n < 32 := by omega
  have hplace : 96 - 32 * j + (24 - 8 * c + n) = 120 - 8 * (4 * j + c) + n := by omega
  simp only [regWord, BitVec.getLsbD_extractLsb', hn, hin, hplace, decide_true, Bool.true_and]

/-- The byte order of R203: window byte 16·i + 4·j + c is byte c of word j of Fi. -/
theorem windowByte_regWord (s : State) (i : Reg) (j : Fin 4) {c : Nat} (hc : c < 4) :
    s.windowByte (16 * i.val + (4 * j.val + c)) = (s.reg i).extractLsb' (120 - 8 * (4 * j.val + c)) 8 := by
  have hword : (16 * i.val + (4 * j.val + c)) / 4 * 4 = 16 * i.val + 4 * j.val := by omega
  have hbyte : (16 * i.val + (4 * j.val + c)) % 4 = c := by omega
  rw [State.windowByte, hword, hbyte, hostRead_regWord, State.readRegWord, extractLsb'_regWord _ j.isLt hc]

/-- Settles O42: a byte by `windowByte_regWord`, a word by `hostRead_regWord`. -/
theorem registerWordRead : Obligations.RegisterWordRead := by
  intro s i j rest
  refine ⟨fun b hb => ?_, fun hbus => ?_⟩
  · obtain ⟨c, hc, rfl⟩ : ∃ c < 4, b = 4 * j.val + c := ⟨b % 4, by omega, by omega⟩
    exact windowByte_regWord s i j hc
  · rw [step_read (by omega) (by omega) hbus, hostRead_regWord, State.readRegWord, regWord]

/-! ### Read after write -/

theorem regWord_setRegWord_self (old : Raw) (j : Fin 4) (v : Word) : regWord (setRegWord old j.val v) j.val = v := by
  apply BitVec.eq_of_getLsbD_eq
  intro n hn
  have hin : 96 - 32 * j.val ≤ 96 - 32 * j.val + n ∧ 96 - 32 * j.val + n < 128 - 32 * j.val := by omega
  rw [regWord, BitVec.getLsbD_extractLsb', getLsbD_setRegWord _ _ j.isLt _ _ (by omega), if_pos hin, Nat.add_sub_cancel_left,
    decide_eq_true hn, Bool.true_and]

/-- The 32 bits of another word lie outside the ones replaced. -/
theorem regWord_setRegWord_ne (old : Raw) {j j' : Fin 4} (h : j' ≠ j) (v : Word) :
    regWord (setRegWord old j.val v) j'.val = regWord old j'.val := by
  apply BitVec.eq_of_getLsbD_eq
  intro n hn
  have hne : j'.val ≠ j.val := Fin.val_ne_of_ne h
  have hout : ¬ (96 - 32 * j.val ≤ 96 - 32 * j'.val + n ∧ 96 - 32 * j'.val + n < 128 - 32 * j.val) := by omega
  rw [regWord, regWord, BitVec.getLsbD_extractLsb', BitVec.getLsbD_extractLsb',
    getLsbD_setRegWord _ _ j.isLt _ _ (by omega), if_neg hout]

theorem readRegWord_writeRegWord_self (s : State) (i : Reg) (j : Fin 4) (v : Word) :
    (s.writeRegWord i j v).readRegWord i j = v := by
  rw [State.readRegWord, reg_writeRegWord_self, regWord_setRegWord_self]

theorem readRegWord_writeRegWord_ne (s : State) {i i' : Reg} {j j' : Fin 4} (h : i' ≠ i ∨ j' ≠ j) (v : Word) :
    (s.writeRegWord i j v).readRegWord i' j' = s.readRegWord i' j' := by
  rw [State.readRegWord, State.readRegWord]
  by_cases hi : i' = i
  · subst hi
    rw [reg_writeRegWord_self, regWord_setRegWord_ne _ (h.resolve_left (fun hne => hne rfl))]
  · rw [reg_writeRegWord_ne s j v hi]

/-- Settles O45: the two rules of a register word read after a register word write. -/
theorem registerReadAfterWrite : Obligations.RegisterReadAfterWrite :=
  fun s i _ j _ v => ⟨readRegWord_writeRegWord_self s i j v, fun h => readRegWord_writeRegWord_ne s h v⟩

end Sys2Proof.Machine
end

section
/-! The encoder against the decoder (R304, R307): the field checks a command's own fields pass, the words that decode, and R305's
four ways to be illegal as their complement. -/

namespace Sys2Proof

open Sys2Proof.Machine Sys2Proof.Spec

/-! ### Decoding an encoded command -/

/-- Every command is built by its opcode, with RS2 0 where the format has none (R302). -/
theorem exists_build : ∀ i : Instr, ∃ (o : Opcode) (s1 s2 : Fin 16), o.build i.dest s1 s2 = i ∧ (o.format = .RR ∨ s2 = 0)
  | .abs _ a => ⟨.abs, a, 0, rfl, .inr rfl⟩
  | .avg _ a b => ⟨.avg, a, b, rfl, .inl rfl⟩
  | .gavg _ a b => ⟨.gavg, a, b, rfl, .inl rfl⟩
  | .mul _ a b => ⟨.mul, a, b, rfl, .inl rfl⟩
  | .div _ a b => ⟨.div, a, b, rfl, .inl rfl⟩
  | .inv _ a => ⟨.inv, a, 0, rfl, .inr rfl⟩
  | .sqrt _ a => ⟨.sqrt, a, 0, rfl, .inr rfl⟩
  | .log2 _ a => ⟨.log2, a, 0, rfl, .inr rfl⟩
  | .ln _ a => ⟨.ln, a, 0, rfl, .inr rfl⟩
  | .exp2 _ a => ⟨.exp2, a, 0, rfl, .inr rfl⟩
  | .exp _ a => ⟨.exp, a, 0, rfl, .inr rfl⟩
  | .pow _ a b => ⟨.pow, a, b, rfl, .inl rfl⟩
  | .fromint _ a => ⟨.fromint, a, 0, rfl, .inr rfl⟩
  | .toint _ a => ⟨.toint, a, 0, rfl, .inr rfl⟩
  | .ldc _ k => ⟨.ldc, k, 0, rfl, .inr rfl⟩

/-- The converse of `wellFormed_build`. -/
theorem constIndex_of_wellFormed_build {o : Opcode} {rd s1 s2 : Fin 16} (h : (o.build rd s1 s2).WellFormed = true) :
    o.format ≠ .RK ∨ s1.val < 8 := by
  cases o
  case ldc => exact .inr (of_decide_eq_true h)
  all_goals exact .inl nofun

/-- The converse of `decodeFields_eq_ok`: these conditions are all that R307 checks. -/
theorem decodeFields_of_checks {o : Opcode} {s1 s2 : Fin 16} (rd : Fin 16) (hs2 : o.format = .RR ∨ s2 = 0)
    (hk : o.format ≠ .RK ∨ s1.val < 8) : decodeFields o rd s1 s2 = .ok (o.build rd s1 s2) := by
  unfold decodeFields
  cases hf : o.format <;> simp only [hf] at hs2 hk
  case RR => rfl
  case RU =>
    obtain rfl := hs2.resolve_left nofun
    rfl
  case RK =>
    obtain rfl := hs2.resolve_left nofun
    have hk8 : ¬ s1.val ≥ 8 := Nat.not_le.mpr (hk.resolve_left (fun hne => hne rfl))
    simp [hk8]

/-- Settles O2: the command's own fields pass the field checks of its opcode. -/
theorem decodeOfEncode : Obligations.DecodeOfEncode := by
  intro i hi
  obtain ⟨o, s1, s2, hbuild, hs2⟩ := exists_build i
  rw [← hbuild] at hi ⊢
  rw [encode_build hs2, decode_encodeFields, decodeFields_of_checks _ hs2 (constIndex_of_wellFormed_build hi)]

/-- Settles O1: each word is a literal, and the decoder evaluates on it. -/
theorem writtenOutWordsDecode : Obligations.WrittenOutWordsDecode := by
  unfold Obligations.WrittenOutWordsDecode
  decide

/-! ### Legal and illegal words -/

/-- The words that decode (R305, R307). -/
theorem exists_decode_iff (w : Word) :
    (∃ i, decode w = .ok i) ↔
      bitField w 0 12 = 0 ∧ ∃ o : Opcode, o.code = bitField w 24 8 ∧ (o.format = .RR ∨ nibble w 12 = 0) ∧
        (o.format ≠ .RK ∨ (nibble w 16).val < 8) := by
  constructor
  · rintro ⟨i, hdec⟩
    obtain ⟨hres, o, hop, hfields⟩ := decode_eq_ok hdec
    exact ⟨hres, o, hop, (decodeFields_eq_ok hfields).2⟩
  · rintro ⟨hres, o, hop, hs2, hk⟩
    refine ⟨o.build (nibble w 20) (nibble w 16) (nibble w 12), ?_⟩
    rw [← decodeFields_of_checks _ hs2 hk, ← decode_encodeFields, encodeFields_of_fields hop hres]

/-- No two opcodes share an OP value (R304). -/
theorem code_inj {o o' : Opcode} : o.code = o'.code ↔ o = o' := by
  refine ⟨fun h => Option.some_inj.mp ?_, congrArg Opcode.code⟩
  rw [← ofCode_code o, h, ofCode_code]

/-- The spec's lists of OP values are the formats of the opcode map (R304). -/
theorem code_mem_opsRR_iff (o : Opcode) : o.code ∈ opsRR ↔ o.format = .RR := by cases o <;> decide

theorem code_mem_opsRU_iff (o : Opcode) : o.code ∈ opsRU ↔ o.format = .RU := by cases o <;> decide

theorem code_eq_ldc_iff (o : Opcode) : o.code = 0x18 ↔ o.format = .RK := by cases o <;> decide

theorem isSome_ofCode_of_mem_ops : ∀ n ∈ opsRR ++ opsRU ++ [0x18], (Opcode.ofCode n).isSome = true := by decide

/-- The assigned OP values are those of the spec's lists (R304). -/
theorem exists_code_iff (n : Nat) : (∃ o : Opcode, o.code = n) ↔ n ∈ opsRR ∨ n ∈ opsRU ∨ n = 0x18 := by
  constructor
  · rintro ⟨o, rfl⟩
    rw [code_mem_opsRR_iff, code_mem_opsRU_iff, code_eq_ldc_iff]
    cases o.format <;> simp
  · intro h
    have hmem : n ∈ opsRR ++ opsRU ++ [0x18] := by simpa [or_assoc] using h
    obtain ⟨o, ho⟩ := Option.isSome_iff_exists.mp (isSome_ofCode_of_mem_ops n hmem)
    exact ⟨o, code_of_ofCode ho⟩

theorem val_nibble (w : Word) (lo : Nat) : (nibble w lo).val = bitField w lo 4 := rfl

theorem nibble_eq_zero_iff (w : Word) (lo : Nat) : nibble w lo = 0 ↔ bitField w lo 4 = 0 := Fin.ext_iff

theorem toNat_extractLsb'_eq_bitField (w : Word) (lo width : Nat) : (w.extractLsb' lo width).toNat = bitField w lo width := by
  rw [BitVec.extractLsb'_toNat, Nat.shiftRight_eq_div_pow, bitField]

theorem extractLsb'_eq_zero_iff (w : Word) (lo width : Nat) : w.extractLsb' lo width = 0 ↔ bitField w lo width = 0 := by
  rw [← BitVec.toNat_inj, toNat_extractLsb'_eq_bitField]
  rfl

/-- R305's four ways on the fields the decoder reads. -/
theorem illegalWord_iff_fields (w : Word) :
    IllegalWord w ↔
      ¬ (∃ o : Opcode, o.code = bitField w 24 8) ∨ bitField w 0 12 ≠ 0 ∨
      ((bitField w 24 8 ∈ opsRU ∨ bitField w 24 8 = 0x18) ∧ nibble w 12 ≠ 0) ∨
      (bitField w 24 8 = 0x18 ∧ 8 ≤ (nibble w 16).val) := by
  simp only [IllegalWord, toNat_extractLsb'_eq_bitField, ne_eq, extractLsb'_eq_zero_iff, exists_code_iff, not_or, val_nibble,
    nibble_eq_zero_iff]

/-- A word is illegal exactly when it does not decode (R305). -/
theorem illegalWord_iff_not_exists_decode (w : Word) : IllegalWord w ↔ ¬ ∃ i, decode w = .ok i := by
  rw [illegalWord_iff_fields, exists_decode_iff]
  by_cases hop : ∃ o : Opcode, o.code = bitField w 24 8
  · obtain ⟨o, ho⟩ := hop
    simp only [← ho, code_inj, code_mem_opsRU_iff, code_eq_ldc_iff, exists_eq, exists_eq_left]
    cases o.format <;> simp [imp_iff_not_or]
  · exact iff_of_true (.inl hop) (fun ⟨_, o, ho, _⟩ => hop ⟨o, ho⟩)

theorem exists_decode_error_iff (w : Word) : (∃ e, decode w = .error e) ↔ ¬ ∃ i, decode w = .ok i := by
  cases decode w <;> simp

/-- Settles O4: the illegal words are those that do not decode, and such a word raises IllegalCommand. -/
theorem illegalWordsRaiseIllegalCommand : Obligations.IllegalWordsRaiseIllegalCommand := by
  intro w
  have hiff : (∃ e, decode w = .error e) ↔ IllegalWord w :=
    (exists_decode_error_iff w).trans (illegalWord_iff_not_exists_decode w).symm
  refine ⟨hiff, fun hw s => ?_⟩
  obtain ⟨e, hdec⟩ := hiff.mpr hw
  exact ⟨_, execute_of_error hdec s, failed_raiseError s .illegalCommand w⟩

end Sys2Proof
end

section
/-! A command that completes is all R1005 says, and the pseudo-instructions of R309. -/

namespace Sys2Proof.Machine

open Sys2Proof.Spec

/-- A command that completes with a value in range is all R1005 says. -/
theorem completed_complete (s : State) (rd : Reg) {v : Int} (hmin : MIN ≤ v) (hmax : v ≤ MAX) :
    Completed s (s.complete rd v) rd v := by
  refine ⟨hmin, hmax, ?_, fun q hq => reg_complete_ne s v hq, (allWritten_iff _ rd).mp (allWritten_complete_self s rd v),
    fun q hq => written_complete_ne s v hq, rfl, rfl, rfl, hostSideKept_finish s 0 rd (.ok v)⟩
  rw [reg_complete_self]
  exact sval_toRaw hmin hmax

/-- A command whose rule returns a value completes with it (R310). -/
theorem exec_of_outcome_ok {i : Instr} {s : State} {v : Int} (h : outcome s.cfg i s.reg = .ok v) :
    exec i s = .next (s.complete i.dest v) := by
  rw [exec_eq, h, State.finish_ok]

/-- The average of a value with itself (R411). -/
theorem avgRule_self (x : Int) : avgRule x x = .ok x := by
  have h : (x + x) / 2 ^ 1 = x := by omega
  rw [avgRule, shr, h]

/-- Settles O20: MOV is `avgRule_self`, CLR and ONE are entries 0 and 1 of the ROM, and FROMRATIO is DIV by definition. -/
theorem pseudoInstructions : Obligations.PseudoInstructions := by
  refine ⟨fun rd rs s => ?_, fun rd s => ?_, fun rd s => ?_, fun _ _ _ _ => rfl⟩
  · obtain ⟨hmin, hmax⟩ := sval_range (s.reg rs)
    refine ⟨_, exec_of_outcome_ok (avgRule_self (sval (s.reg rs))), completed_complete s rd hmin hmax, ?_⟩
    rw [Instr.mov, Instr.dest, reg_complete_self, toRaw_sval]
  · have hrom : ldcRule 0 = .ok 0 := rfl
    exact ⟨_, exec_of_outcome_ok hrom, completed_complete s rd (by decide) (by decide)⟩
  · have hrom : ldcRule 1 = .ok SCALE := rfl
    exact ⟨_, exec_of_outcome_ok hrom, completed_complete s rd (by decide) (by decide)⟩

end Sys2Proof.Machine
end

section
/-! What every statement about one command needs: the spec's word is the command's encoding (R301, R304), and `finish` on a rule's
result is all R1005 or R1006 says. -/

namespace Sys2Proof.Machine

open Sys2Proof.Spec

/-! ### The spec's command word -/

/-- Numbers at disjoint places: their OR is their sum (R304). -/
theorem or_fields_eq_sum (c : Nat) {rd s1 s2 : Nat} (hrd : rd < 16) (h1 : s1 < 16) (h2 : s2 < 16) :
    2 ^ 24 * c ||| 2 ^ 20 * rd ||| 2 ^ 16 * s1 ||| 2 ^ 12 * s2 = 2 ^ 24 * c + 2 ^ 20 * rd + 2 ^ 16 * s1 + 2 ^ 12 * s2 := by
  have hlow : 2 ^ 16 * s1 ||| 2 ^ 12 * s2 = 2 ^ 16 * s1 + 2 ^ 12 * s2 := (Nat.two_pow_add_eq_or_of_lt (by omega) _).symm
  have hmid : 2 ^ 20 * rd ||| (2 ^ 16 * s1 + 2 ^ 12 * s2) = 2 ^ 20 * rd + (2 ^ 16 * s1 + 2 ^ 12 * s2) :=
    (Nat.two_pow_add_eq_or_of_lt (by omega) _).symm
  rw [Nat.or_assoc, Nat.or_assoc, hlow, hmid, ← Nat.two_pow_add_eq_or_of_lt (by omega), add_assoc, add_assoc]

theorem toNat_ofNat_shiftLeft {n k : Nat} (h : 2 ^ k * n < 2 ^ 32) : (BitVec.ofNat 32 n <<< k).toNat = 2 ^ k * n := by
  rw [BitVec.toNat_shiftLeft, BitVec.toNat_ofNat, Nat.shiftLeft_eq, Nat.mod_mul_mod, mul_comm, Nat.mod_eq_of_lt h]

/-- The word the spec spells with shifts and ORs is the one the encoder sums up (R304). -/
theorem word_code (o : Opcode) (rd s1 s2 : Fin 16) : word o.code rd s1 s2 = encodeFields o rd s1 s2 := by
  have hop : o.code < 2 ^ 8 := by cases o <;> decide
  apply BitVec.eq_of_toNat_eq
  rw [toNat_encodeFields, ← or_fields_eq_sum o.code rd.isLt s1.isLt s2.isLt, word]
  simp only [BitVec.toNat_or]
  rw [toNat_ofNat_shiftLeft (by omega), toNat_ofNat_shiftLeft (by omega), toNat_ofNat_shiftLeft (by omega),
    toNat_ofNat_shiftLeft (by omega)]

/-! ### The end of a command -/

theorem completed_finish {s : State} {rd : Reg} {r : CmdResult} {v : Int} (w : Word) (h : r = .ok v) (hfits : MIN ≤ v ∧ v ≤ MAX) :
    Completed s (s.finish w rd r) rd v := by
  rw [h]
  exact completed_complete s rd hfits.1 hfits.2

theorem failed_finish {s : State} {rd : Reg} {r : CmdResult} {e : ErrorKind} (w : Word) (h : r = .error e) :
    Failed s (s.finish w rd r) e.code w := by
  rw [h]
  exact failed_raiseError s e w

theorem code_finish_checkRange (s : State) (w : Word) (rd : Reg) (v : Int) :
    (s.finish w rd (checkRange v)).code = 1 ↔ ¬ (MIN ≤ v ∧ v ≤ MAX) := by
  by_cases h : MIN ≤ v ∧ v ≤ MAX
  · rw [checkRange_of_fits h]
    exact iff_of_false (by decide : (0 : BitVec 4) ≠ 1) (not_not.mpr h)
  · rw [checkRange_of_not_fits h]
    exact iff_of_true rfl h

end Sys2Proof.Machine
end

section
/-! ABS, AVG and GAVG (40_sign_avg.md): what each rule answers, and the statements about the commands. -/

namespace Sys2Proof.Machine

open Sys2Proof.Spec

/-! ### ABS -/

theorem absRule_MIN : absRule MIN = .error .overflow := if_pos rfl

theorem absRule_of_ne {x : Int} (h : x ≠ MIN) : absRule x = .ok |x| := if_neg h

/-- The absolute value of a register's value fits, but for MIN (R402). -/
theorem abs_fits {x : Int} (hx : MIN ≤ x ∧ x ≤ MAX) (hne : x ≠ MIN) : MIN ≤ |x| ∧ |x| ≤ MAX := by
  have habs := abs_choice x
  simp only [MIN, MAX] at *
  omega

/-- Settles O5: `absRule` fails at MIN alone, and elsewhere |x| fits. -/
theorem absCommand : Obligations.AbsCommand := by
  intro rd rs1 s
  have hword : word 0x01 rd rs1 0 = encode (.abs rd rs1) := word_code .abs rd rs1 0
  rw [hword]
  refine ⟨decodeOfEncode _ rfl, _, exec_eq _ s, fun hmin => ?_, fun hne => ?_⟩
  · have hrule : absRule (sval (s.reg rs1)) = .error .overflow := (congrArg absRule hmin).trans absRule_MIN
    exact failed_finish _ hrule
  · exact completed_finish _ (absRule_of_ne hne) (abs_fits (sval_range _) hne)

/-! ### AVG -/

/-- The mean of two values in range is in range, so AVG never fails (R411). -/
theorem avg_fits {x y : Int} (hx : MIN ≤ x ∧ x ≤ MAX) (hy : MIN ≤ y ∧ y ≤ MAX) : MIN ≤ (x + y) / 2 ∧ (x + y) / 2 ≤ MAX := by
  omega

/-- Settles O6: `avgRule` returns the floor of the mean, which fits. -/
theorem avgCommand : Obligations.AvgCommand := by
  intro rd rs1 rs2 s
  have hword : word 0x02 rd rs1 rs2 = encode (.avg rd rs1 rs2) := word_code .avg rd rs1 rs2
  rw [hword]
  exact ⟨decodeOfEncode _ rfl, _, exec_eq _ s, completed_finish _ rfl (avg_fits (sval_range _) (sval_range _))⟩

/-- The carry form of the halved sum: the two halves and one more when both numbers are odd (R412). -/
theorem add_ediv_two (x y : Int) : (x + y) / 2 = x / 2 + y / 2 + x % 2 * (y % 2) := by
  obtain hx | hx := Int.emod_two_eq_zero_or_one x <;> rw [hx] <;> omega

theorem toRaw_add (x y : Int) : toRaw (x + y) = toRaw x + toRaw y := BitVec.ofInt_add x y

/-- The arithmetic right shift by 1 halves the value (R14). -/
theorem toRaw_sval_ediv_two (a : Raw) : toRaw (sval a / 2) = a.sshiftRight 1 := by
  rw [BitVec.sshiftRight, Int.shiftRight_eq_div_pow]
  rfl

/-- The low bit of a pattern is the parity of its value. -/
theorem sval_emod_two (a : Raw) : sval a % 2 = (a.getLsbD 0).toNat := by
  have hlow : (a.getLsbD 0).toNat = a.toNat % 2 := by
    rw [BitVec.getLsbD, Nat.toNat_testBit, pow_zero, Nat.div_one]
  rw [hlow, sval, BitVec.toInt_eq_toNat_cond]
  split <;> omega

/-- The shared low bit: 1 when both values are odd (R412). -/
theorem toRaw_emod_two_mul (a b : Raw) : toRaw (sval a % 2 * (sval b % 2)) = a &&& b &&& 1#128 := by
  rw [BitVec.and_one_eq_setWidth_ofBool_getLsbD, BitVec.getLsbD_and, sval_emod_two, sval_emod_two]
  cases a.getLsbD 0 <;> cases b.getLsbD 0 <;> rfl

/-- Settles O21: the carry form of the halved sum, term by term in 128 bits. -/
theorem avgWithoutWideSum : Obligations.AvgWithoutWideSum := by
  intro rd rs1 rs2 s t h
  have hreg : t.reg rd = toRaw ((sval (s.reg rs1) + sval (s.reg rs2)) / 2) := by
    rw [exec_next h]
    exact reg_complete_self s rd _
  rw [hreg, add_ediv_two, toRaw_add, toRaw_add, toRaw_sval_ediv_two, toRaw_sval_ediv_two, toRaw_emod_two_mul]

/-! ### GAVG -/

theorem gavgRule_of_neg (p : GavgSignError) {x y : Int} (h : x * y < 0) : gavgRule p x y = .error (gavgError p) := if_pos h

theorem gavgRule_of_nonneg (p : GavgSignError) {x y : Int} (h : 0 ≤ x * y) :
    gavgRule p x y = checkRange (isqrt (x * y).toNat) := if_neg (not_lt.mpr h)

/-- `isqrt` (R15) read over the integers. -/
theorem isqrt_toNat_spec {z : Int} (h : 0 ≤ z) :
    (isqrt z.toNat : Int) * isqrt z.toNat ≤ z ∧ z < ((isqrt z.toNat : Int) + 1) * (isqrt z.toNat + 1) := by
  obtain ⟨n, rfl⟩ := Int.eq_ofNat_of_zero_le h
  exact_mod_cast isqrt_spec n

theorem natCast_fits {r : Nat} : (MIN ≤ (r : Int) ∧ (r : Int) ≤ MAX) ↔ r < 2 ^ 127 := by
  simp only [MIN, MAX]
  omega

/-- Settles O7: a negative product raises the parameter's error, and otherwise the root `isqrt` finds is checked. -/
theorem gavgCommand : Obligations.GavgCommand := by
  intro rd rs1 rs2 s
  have hword : word 0x03 rd rs1 rs2 = encode (.gavg rd rs1 rs2) := word_code .gavg rd rs1 rs2
  rw [hword]
  refine ⟨decodeOfEncode _ rfl, _, exec_eq _ s, fun hneg => ?_, fun hnonneg => ?_⟩
  · have hrule := gavgRule_of_neg s.cfg.gavgSignError hneg
    exact ⟨fun hp => failed_finish (e := .domain) _ (hrule.trans (by rw [hp]; rfl)),
      fun hp => failed_finish (e := .overflow) _ (hrule.trans (by rw [hp]; rfl))⟩
  · obtain ⟨hle, hlt⟩ := isqrt_toNat_spec hnonneg
    have hrule := gavgRule_of_nonneg s.cfg.gavgSignError hnonneg
    refine ⟨_, hle, hlt, fun hr => ?_, fun hr => ?_⟩
    · have hfits := natCast_fits.mpr (Nat.lt_of_le_pred (by decide) hr)
      exact completed_finish _ (hrule.trans (checkRange_of_fits hfits)) hfits
    · exact failed_finish _ (hrule.trans (checkRange_of_not_fits (natCast_fits.not.mpr hr.not_gt)))

/-- The model's root is Mathlib's. -/
theorem isqrt_eq_sqrt (n : Nat) : isqrt n = n.sqrt := Nat.eq_sqrt.mpr (isqrt_spec n)

/-- A product as large as the square of the bound has both factors at the bound. -/
theorem abs_eq_of_sq_le_mul {m x y : Int} (hx : |x| ≤ m) (hy : |y| ≤ m) (h : m * m ≤ x * y) : |x| = m := by
  refine hx.antisymm (not_lt.mp fun hlt => absurd h (not_le.mpr ?_))
  calc x * y ≤ |x| * |y| := (le_abs_self _).trans (abs_mul x y).le
    _ ≤ |x| * m := mul_le_mul_of_nonneg_left hy (abs_nonneg x)
    _ < m * m := mul_lt_mul_of_pos_right hlt ((abs_nonneg x).trans_lt hlt)

theorem abs_le_of_fits {x : Int} (hx : MIN ≤ x ∧ x ≤ MAX) : |x| ≤ 2 ^ 127 := by
  simp only [MIN, MAX] at hx
  exact abs_le.mpr (by omega)

theorem eq_MIN_of_abs_eq {x : Int} (hx : MIN ≤ x ∧ x ≤ MAX) (h : |x| = 2 ^ 127) : x = MIN := by
  have habs := abs_choice x
  simp only [MIN, MAX] at *
  omega

/-- Of two values in range only MIN and MIN have a product of 2^254 (R424). -/
theorem sq_le_mul_iff {x y : Int} (hx : MIN ≤ x ∧ x ≤ MAX) (hy : MIN ≤ y ∧ y ≤ MAX) :
    2 ^ 127 * 2 ^ 127 ≤ x * y ↔ x = MIN ∧ y = MIN := by
  refine ⟨fun h => ?_, fun ⟨hx', hy'⟩ => by rw [hx', hy']; decide⟩
  have hxm := abs_eq_of_sq_le_mul (abs_le_of_fits hx) (abs_le_of_fits hy) h
  have hym := abs_eq_of_sq_le_mul (abs_le_of_fits hy) (abs_le_of_fits hx) (mul_comm x y ▸ h)
  exact ⟨eq_MIN_of_abs_eq hx hxm, eq_MIN_of_abs_eq hy hym⟩

/-- GAVG's root of two values in range is out of range for MIN and MIN alone (R424). -/
theorem not_isqrt_fits_iff {x y : Int} (hx : MIN ≤ x ∧ x ≤ MAX) (hy : MIN ≤ y ∧ y ≤ MAX) :
    ¬ (MIN ≤ (isqrt (x * y).toNat : Int) ∧ (isqrt (x * y).toNat : Int) ≤ MAX) ↔ x = MIN ∧ y = MIN := by
  rw [natCast_fits, not_lt, isqrt_eq_sqrt, Nat.le_sqrt, ← sq_le_mul_iff hx hy]
  omega

/-- Settles O22: the root of 0 is 0, and `not_isqrt_fits_iff` says when the root is out of range. -/
theorem gavgZeroAndOverflow : Obligations.GavgZeroAndOverflow := by
  intro rd rs1 rs2 s
  refine ⟨_, exec_eq _ s, fun hzero => ?_, fun hnonneg => ?_⟩
  · have hprod : sval (s.reg rs1) * sval (s.reg rs2) = 0 := mul_eq_zero.mpr hzero
    have hrule : gavgRule s.cfg.gavgSignError (sval (s.reg rs1)) (sval (s.reg rs2)) = .ok 0 := by
      rw [gavgRule_of_nonneg _ hprod.ge, hprod]
      rfl
    exact completed_finish _ hrule (by decide)
  · have hrule : outcome s.cfg (.gavg rd rs1 rs2) s.reg = checkRange _ := gavgRule_of_nonneg s.cfg.gavgSignError hnonneg
    rw [hrule, code_finish_checkRange]
    exact not_isqrt_fits_iff (sval_range _) (sval_range _)

end Sys2Proof.Machine
end

section
/-! MUL, DIV and INV (41_mul_div.md): what each rule answers, the truncated quotient by its sign and magnitude, and the statements
about the commands. -/

namespace Sys2Proof.Machine

open Sys2Proof.Spec

/-- A command whose rule ends in the range check completes with the value checked, or ends in Overflow (R16). -/
theorem finish_of_checkRange {r : CmdResult} {v : Int} (h : r = checkRange v) (s : State) (w : Word) (rd : Reg) :
    (-2 ^ 127 ≤ v ∧ v ≤ 2 ^ 127 - 1 → Completed s (s.finish w rd r) rd v) ∧
      (v < -2 ^ 127 ∨ 2 ^ 127 - 1 < v → Failed s (s.finish w rd r) 1 w) := by
  refine ⟨fun hfits => completed_finish w (h.trans (checkRange_of_fits hfits)) hfits, fun hout => ?_⟩
  have hnot : ¬ (MIN ≤ v ∧ v ≤ MAX) := by
    simp only [MIN, MAX]
    omega
  exact failed_finish w (h.trans (checkRange_of_not_fits hnot))

/-! ### MUL -/

/-- Settles O8: `mulRule` checks the floor of the product over 2^64. -/
theorem mulCommand : Obligations.MulCommand := by
  intro rd rs1 rs2 s
  have hword : word 0x04 rd rs1 rs2 = encode (.mul rd rs1 rs2) := word_code .mul rd rs1 rs2
  rw [hword]
  refine ⟨decodeOfEncode _ rfl, _, exec_eq _ s, fun r hr => ?_⟩
  have hrule : outcome s.cfg (.mul rd rs1 rs2) s.reg = checkRange r := congrArg checkRange hr.symm
  exact finish_of_checkRange hrule s _ rd

/-- The floor of a negated quotient that is not exact (R502). -/
theorem shr_neg_of_not_exact {z : Int} (h : z % 2 ^ 64 ≠ 0) : shr (-z) 64 = -shr z 64 - 1 := by
  simp only [shr]
  omega

/-- Settles O23: `shr_neg_of_not_exact`, and -r - 1 is in range exactly when r is. -/
theorem mulOfNegatedOperand : Obligations.MulOfNegatedOperand := by
  intro x y r hexact h
  obtain ⟨⟨hmin, hmax⟩, rfl⟩ := checkRange_eq_ok.mp h
  rw [mulRule, neg_mul, shr_neg_of_not_exact hexact]
  refine checkRange_of_fits ?_
  simp only [MIN, MAX] at *
  omega

/-! ### The truncated quotient -/

theorem abs_tdiv (n d : Int) : |tdiv n d| = |n| / |d| := by
  simp only [tdiv, Int.abs_eq_natAbs, Int.natAbs_tdiv]
  rfl

/-- `tdiv` by sign and magnitude, as R15 writes it. -/
theorem tdiv_eq_sign_mul (n d : Int) : tdiv n d = n.sign * d.sign * (|n| / |d|) := by
  rw [← Int.sign_mul_abs (tdiv n d), abs_tdiv, tdiv, Int.sign_tdiv]
  split
  next hlt =>
    have hlt' : |n| < |d| := by simpa only [Int.abs_eq_natAbs, Nat.cast_lt] using hlt
    rw [Int.ediv_eq_zero_of_lt (abs_nonneg n) hlt', mul_zero, mul_zero]
  next => rfl

/-! ### DIV -/

theorem divRule_zero (x : Int) : divRule x 0 = .error .divisionByZero := if_pos rfl

theorem divRule_of_ne {x y : Int} (h : y ≠ 0) : divRule x y = checkRange (tdiv (shl x 64) y) := if_neg h

/-- DIV's quotient as R511 and R15 write it. -/
theorem tdiv_shl (x y : Int) : tdiv (shl x 64) y = x.sign * y.sign * (|x * 2 ^ 64| / |y|) := by
  rw [tdiv_eq_sign_mul, shl, mul_comm (2 ^ 64) x, Int.sign_mul, show Int.sign (2 ^ 64) = 1 from rfl, mul_one]

/-- Settles O9: a zero divisor first, and otherwise `divRule` checks the quotient of `tdiv_shl`. -/
theorem divCommand : Obligations.DivCommand := by
  intro rd rs1 rs2 s
  have hword : word 0x05 rd rs1 rs2 = encode (.div rd rs1 rs2) := word_code .div rd rs1 rs2
  rw [hword]
  refine ⟨decodeOfEncode _ rfl, _, exec_eq _ s, fun hzero => ?_, fun hne q hq => ?_⟩
  · have hrule : outcome s.cfg (.div rd rs1 rs2) s.reg = .error .divisionByZero :=
      (congrArg (divRule _) hzero).trans (divRule_zero _)
    exact failed_finish _ hrule
  · have hrule : outcome s.cfg (.div rd rs1 rs2) s.reg = checkRange q :=
      (divRule_of_ne hne).trans (congrArg checkRange ((tdiv_shl _ _).trans hq.symm))
    exact finish_of_checkRange hrule s _ rd

theorem abs_tmod_lt (n : Int) {d : Int} (h : d ≠ 0) : |n.tmod d| < |d| := by
  rw [Int.abs_eq_natAbs, Int.abs_eq_natAbs, Int.natAbs_tmod]
  exact_mod_cast Nat.mod_lt _ (Int.natAbs_pos.mpr h)

/-- A dividend less than one divisor away from x·y has a truncated quotient within one unit of x. -/
theorem abs_tdiv_sub_le_one {n x y : Int} (h : |n - x * y| < |y|) : |tdiv n y - x| ≤ 1 := by
  have hpos : 0 < |y| := (abs_nonneg _).trans_lt h
  have hquot : tdiv n y * y + n.tmod y = n := Int.tdiv_mul_add_tmod n y
  have hdiff : (tdiv n y - x) * y = (n - x * y) - n.tmod y := by linear_combination hquot
  have hlt : |tdiv n y - x| * |y| < 2 * |y| :=
    calc |tdiv n y - x| * |y| = |(n - x * y) - n.tmod y| := by rw [← abs_mul, hdiff]
      _ ≤ |n - x * y| + |n.tmod y| := abs_sub _ _
      _ < |y| + |y| := add_lt_add h (abs_tmod_lt n (abs_pos.mp hpos))
      _ = 2 * |y| := (two_mul _).symm
  exact Int.le_of_lt_add_one (lt_of_mul_lt_mul_right hlt hpos.le)

/-- The truncation keeps such a quotient no larger in magnitude than x. -/
theorem abs_tdiv_le {n x y : Int} (h : |n - x * y| < |y|) : |tdiv n y| ≤ |x| := by
  have hpos : 0 < |y| := (abs_nonneg _).trans_lt h
  rw [abs_tdiv]
  refine Int.le_of_lt_add_one (Int.ediv_lt_of_lt_mul hpos ?_)
  calc |n| = |(n - x * y) + x * y| := by rw [sub_add_cancel]
    _ ≤ |n - x * y| + |x * y| := abs_add_le _ _
    _ < |y| + |x| * |y| := by rw [abs_mul]; exact add_lt_add_left h _
    _ = (|x| + 1) * |y| := by ring

/-- A number within one unit of x and no larger in magnitude is in range when x is: the step away from 0 is not taken. -/
theorem fits_of_near {q x : Int} (hx : MIN ≤ x ∧ x ≤ MAX) (hnear : |q - x| ≤ 1) (hle : |q| ≤ |x|) : MIN ≤ q ∧ q ≤ MAX := by
  have hq := abs_le.mp hle
  have hd := abs_le.mp hnear
  have habs := abs_choice x
  simp only [MIN, MAX] at *
  omega

/-- Widening MUL's result gives back the product less the bits the floor dropped, fewer than SCALE (R501). -/
theorem abs_shl_shr_sub_lt (z : Int) : |shl (shr z 64) 64 - z| < 2 ^ 64 := by
  simp only [shl, shr, abs_lt]
  omega

/-- Settles O24: DIV's widened dividend is less than |y| away from x·y, so the quotient is near x and in range; the counterexample
below SCALE by evaluation. -/
theorem divOfMulRoundTrip : Obligations.DivOfMulRoundTrip := by
  refine ⟨fun x y p hmin hmax hy h => ?_, rfl, rfl⟩
  obtain ⟨-, rfl⟩ := checkRange_eq_ok.mp h
  have hne : y ≠ 0 := abs_pos.mp (lt_of_lt_of_le (by norm_num) hy)
  have hdividend := (abs_shl_shr_sub_lt (x * y)).trans_le hy
  have hnear := abs_tdiv_sub_le_one hdividend
  have hfits := fits_of_near ⟨hmin, hmax⟩ hnear (abs_tdiv_le hdividend)
  exact ⟨_, (divRule_of_ne hne).trans (checkRange_of_fits hfits), hnear⟩

/-! ### INV -/

theorem invRule_zero : invRule 0 = .error .divisionByZero := if_pos rfl

theorem invRule_of_ne {x : Int} (h : x ≠ 0) : invRule x = checkRange (tdiv (2 ^ 128) x) := if_neg h

/-- INV's quotient as R521 and R15 write it. -/
theorem tdiv_two_pow_128 (x : Int) : tdiv (2 ^ 128) x = x.sign * (2 ^ 128 / |x|) := by
  rw [tdiv_eq_sign_mul, show Int.sign (2 ^ 128) = 1 from rfl, one_mul, abs_of_pos (by norm_num : (0 : Int) < 2 ^ 128)]

/-- Settles O10: a zero operand first, and otherwise `invRule` checks the quotient of `tdiv_two_pow_128`. -/
theorem invCommand : Obligations.InvCommand := by
  intro rd rs1 s
  have hword : word 0x06 rd rs1 0 = encode (.inv rd rs1) := word_code .inv rd rs1 0
  rw [hword]
  refine ⟨decodeOfEncode _ rfl, _, exec_eq _ s, fun hzero => ?_, fun hne q hq => ?_⟩
  · have hrule : outcome s.cfg (.inv rd rs1) s.reg = .error .divisionByZero := (congrArg invRule hzero).trans invRule_zero
    exact failed_finish _ hrule
  · have hrule : outcome s.cfg (.inv rd rs1) s.reg = checkRange q :=
      (invRule_of_ne hne).trans (congrArg checkRange ((tdiv_two_pow_128 _).trans hq.symm))
    exact finish_of_checkRange hrule s _ rd

/-- SCALE widened is INV's dividend (R522). -/
theorem shl_scale : shl (2 ^ 64) 64 = 2 ^ 128 := by norm_num [shl]

/-- Settles O25: both rules test the same divisor, and their dividends are equal by `shl_scale`. -/
theorem invIsDivOfScale : Obligations.InvIsDivOfScale := by
  intro x
  rw [invRule, divRule, shl_scale]

end Sys2Proof.Machine
end

section
/-! SQRT (42_sqrt.md): what its rule answers, bounds on the root of the widened radicand, and the statements about the command. -/

namespace Sys2Proof.Machine

open Sys2Proof.Spec

theorem sqrtRule_of_neg {x : Int} (h : x < 0) : sqrtRule x = .error .negativeInput := if_pos h

theorem sqrtRule_of_nonneg {x : Int} (h : 0 ≤ x) : sqrtRule x = .ok (isqrt (shl x 64).toNat) := if_neg (not_lt.mpr h)

theorem shl_nonneg {x : Int} (h : 0 ≤ x) (k : Nat) : 0 ≤ shl x k := mul_nonneg (by positivity) h

/-- A number below the square of m has its root below m. -/
theorem isqrt_toNat_lt {z m : Int} (hz : 0 ≤ z) (hm : 0 ≤ m) (h : z < m * m) : (isqrt z.toNat : Int) < m :=
  lt_of_mul_self_lt_mul_self₀ hm ((isqrt_toNat_spec hz).1.trans_lt h)

/-! ### The range of the root -/

/-- SQRT's root is below 2^96: the widened radicand is below 2^191 (R601, R603). -/
theorem isqrt_shl_lt {x : Int} (h0 : 0 ≤ x) (hmax : x ≤ MAX) : (isqrt (shl x 64).toNat : Int) < 2 ^ 96 := by
  refine isqrt_toNat_lt (shl_nonneg h0 64) (by norm_num) ?_
  simp only [shl, MAX] at *
  omega

/-- SQRT's root always fits, so SQRT raises no Overflow (R603). -/
theorem isqrt_shl_fits {x : Int} (h0 : 0 ≤ x) (hmax : x ≤ MAX) :
    MIN ≤ (isqrt (shl x 64).toNat : Int) ∧ (isqrt (shl x 64).toNat : Int) ≤ MAX := by
  have hlt := isqrt_shl_lt h0 hmax
  exact natCast_fits.mpr (by omega)

/-- Settles O11: a negative operand fails, and otherwise the root is `isqrt_toNat_spec`'s and fits. -/
theorem sqrtCommand : Obligations.SqrtCommand := by
  intro rd rs1 s
  have hword : word 0x07 rd rs1 0 = encode (.sqrt rd rs1) := word_code .sqrt rd rs1 0
  rw [hword]
  refine ⟨decodeOfEncode _ rfl, _, exec_eq _ s, fun hneg => ?_, fun hnonneg => ?_⟩
  · have hrule : outcome s.cfg (.sqrt rd rs1) s.reg = .error .negativeInput := sqrtRule_of_neg hneg
    exact failed_finish _ hrule
  · obtain ⟨hle, hlt⟩ := isqrt_toNat_spec (shl_nonneg hnonneg 64)
    rw [mul_comm _ (2 ^ 64)]
    exact ⟨_, hle, hlt, completed_finish _ (sqrtRule_of_nonneg hnonneg) (isqrt_shl_fits hnonneg (sval_range _).2)⟩

/-! ### The root of MUL(x, x) -/

/-- Narrowing and widening again drops the low bits, so it rounds down (R501). -/
theorem shl_shr_le (z : Int) : shl (shr z 64) 64 ≤ z := by
  simp only [shl, shr]
  omega

theorem shr_nonneg {z : Int} (h : 0 ≤ z) (k : Nat) : 0 ≤ shr z k := Int.ediv_nonneg h (by positivity)

/-- MUL(x, x) and its root both round down, so the root is at most |x| (R604). -/
theorem isqrt_shl_shr_mul_self_le (x : Int) : (isqrt (shl (shr (x * x) 64) 64).toNat : Int) ≤ |x| := by
  refine Int.le_of_lt_add_one (isqrt_toNat_lt (shl_nonneg (shr_nonneg (mul_self_nonneg x) 64) 64) (by positivity) ?_)
  calc shl (shr (x * x) 64) 64 ≤ x * x := shl_shr_le _
    _ = |x| * |x| := (abs_mul_abs_self x).symm
    _ < (|x| + 1) * (|x| + 1) := mul_self_lt_mul_self (abs_nonneg x) (lt_add_one _)

/-- Settles O26: the two bounds on the root above; a product MUL answers for x and x is not negative. -/
theorem sqrtBounds : Obligations.SqrtBounds := by
  refine ⟨fun x h0 hmax => ⟨_, sqrtRule_of_nonneg h0, Int.natCast_nonneg _, isqrt_shl_lt h0 hmax⟩, fun x p h => ?_⟩
  obtain ⟨-, rfl⟩ := checkRange_eq_ok.mp h
  exact ⟨_, sqrtRule_of_nonneg (shr_nonneg (mul_self_nonneg x) 64), isqrt_shl_shr_mul_self_le x⟩

end Sys2Proof.Machine
end

section
/-! LOG2 and LN (R701 to R723): the squaring recurrence as a sequence of mantissas, and the statements about the two commands. -/

namespace Sys2Proof.Machine

open Sys2Proof.Spec

/-! ### LOG2 -/

theorem log2Rule_of_nonpos {x : Int} (h : x ≤ 0) : log2Rule x = .error .nonPositiveInput := if_pos h

theorem log2Rule_of_pos {x : Int} (h : 0 < x) :
    log2Rule x = .ok (shl (msb x.toNat - 64) 64 + log2Fraction 64 (x.toNat <<< (127 - msb x.toNat))) :=
  if_neg (not_le.mpr h)

/-- One step of R701's recurrence: the mantissa squared, halved when the square reaches 2, and truncated. -/
def log2Step (m : Nat) : Nat := m * m / 2 ^ (127 + m * m / 2 ^ 255)

theorem log2Fraction_succ (i m : Nat) :
    log2Fraction (i + 1) m = m * m / 2 ^ 255 * 2 ^ i + log2Fraction i (log2Step m) := by
  simp only [log2Fraction, log2Step, Nat.shiftRight_eq_div_pow, mul_comm]

/-- The fraction is the sum of the bits the successive mantissas emit (R701). -/
theorem log2Fraction_eq_sum (n : Nat) : ∀ m : Nat,
    log2Fraction n m = ∑ j ∈ Finset.range n, log2Step^[j] m * log2Step^[j] m / 2 ^ 255 * 2 ^ (n - 1 - j) := by
  induction n with
  | zero => intro m; rfl
  | succ n ih =>
    intro m
    rw [log2Fraction_succ, ih, Finset.sum_range_succ', add_comm]
    congr 1
    refine Finset.sum_congr rfl fun j _ => ?_
    have hexp : n + 1 - 1 - (j + 1) = n - 1 - j := by omega
    rw [hexp, Function.iterate_succ_apply]

/-- What LOG2 answers for a positive operand is R701's value. -/
theorem log2Value_of_log2Rule {x v : Int} (hpos : 0 < x) (hmax : x ≤ MAX) (h : log2Rule x = .ok v) : Log2Value x v := by
  obtain ⟨n, rfl⟩ := Int.eq_ofNat_of_zero_le hpos.le
  rw [log2Rule_of_pos hpos, Int.toNat_natCast, log2Fraction_eq_sum] at h
  injection h with h
  obtain ⟨hlo, hhi⟩ := msb_spec (n := n) (by omega)
  have hstart : ((n <<< (127 - msb n) : Nat) : Int) = n * 2 ^ (127 - msb n) := by simp [Nat.shiftLeft_eq]
  refine ⟨msb n, fun j => log2Step^[j] (n <<< (127 - msb n)), by exact_mod_cast hlo, by exact_mod_cast hhi, hstart,
    fun j _ => Function.iterate_succ_apply' log2Step j _, ?_⟩
  rw [← h, shl, mul_comm, Nat.cast_sum]

/-- LOG2 of a positive operand succeeds, with R701's value, in R704's range. -/
theorem log2Rule_spec {x : Int} (hpos : 0 < x) (hmax : x ≤ MAX) :
    ∃ v, log2Rule x = .ok v ∧ Log2Value x v ∧ -(64 * 2 ^ 64) ≤ v ∧ v < 63 * 2 ^ 64 :=
  have hrule := log2Rule_of_pos hpos
  ⟨_, hrule, log2Value_of_log2Rule hpos hmax hrule, log2Rule_range hmax hrule⟩

/-- Settles O28: LOG2 of a positive operand succeeds, in `log2Rule_range`. -/
theorem log2Range : Obligations.Log2Range := by
  intro x hpos hmax
  obtain ⟨v, hrule, -, hrange⟩ := log2Rule_spec hpos hmax
  exact ⟨v, hrule, hrange⟩

theorem fits_of_log2_range {v : Int} (h : -(64 * 2 ^ 64) ≤ v ∧ v < 63 * 2 ^ 64) : MIN ≤ v ∧ v ≤ MAX := by
  simp only [MIN, MAX]
  omega

/-- Settles O12: a non-positive operand fails, and otherwise the value is `log2Rule_spec`'s and fits. -/
theorem log2Command : Obligations.Log2Command := by
  intro rd rs1 s
  have hword : word 0x08 rd rs1 0 = encode (.log2 rd rs1) := word_code .log2 rd rs1 0
  rw [hword]
  refine ⟨decodeOfEncode _ rfl, _, exec_eq _ s, fun hnonpos => ?_, fun hpos => ?_⟩
  · have hrule : outcome s.cfg (.log2 rd rs1) s.reg = .error .nonPositiveInput := log2Rule_of_nonpos hnonpos
    exact failed_finish _ hrule
  · obtain ⟨v, hrule, hvalue, hrange⟩ := log2Rule_spec hpos (sval_range _).2
    exact ⟨v, hvalue, completed_finish _ hrule (fits_of_log2_range hrange)⟩

/-- The mantissa 1.0 squares to itself and emits no bit (R705). -/
theorem log2Fraction_one (n : Nat) : log2Fraction n (2 ^ 127) = 0 := by
  induction n with
  | zero => rfl
  | succ n ih =>
    have hbit : 2 ^ 127 * 2 ^ 127 / 2 ^ 255 = 0 := by norm_num
    have hstep : log2Step (2 ^ 127) = 2 ^ 127 := by norm_num [log2Step]
    rw [log2Fraction_succ, hbit, hstep, ih, Nat.zero_mul]

/-- LOG2(2^j) is j - 64 exactly (R705). -/
theorem log2Rule_two_pow {j : Nat} (h : j ≤ 126) : log2Rule (2 ^ j) = .ok (((j : Int) - 64) * 2 ^ 64) := by
  have hmsb : msb (2 ^ j) = j := msb_unique le_rfl (Nat.pow_lt_pow_succ (by decide))
  have htoNat : ((2 : Int) ^ j).toNat = 2 ^ j := by exact_mod_cast Int.toNat_natCast (2 ^ j)
  have hmant : 2 ^ j <<< (127 - j) = 2 ^ 127 := by
    rw [Nat.shiftLeft_eq, ← pow_add]
    congr 1
    omega
  rw [log2Rule_of_pos (by positivity), htoNat, hmsb, hmant, log2Fraction_one, shl, mul_comm, Nat.cast_zero, add_zero]

/-- Settles O27: LOG2 of a power of two is `log2Rule_two_pow`. -/
theorem log2OfPowersOfTwo : Obligations.Log2OfPowersOfTwo := by
  intro rd rs1 s j hj hreg
  have hrule : outcome s.cfg (.log2 rd rs1) s.reg = .ok (((j : Int) - 64) * 2 ^ 64) :=
    (congrArg log2Rule hreg).trans (log2Rule_two_pow hj)
  exact ⟨_, exec_of_outcome_ok hrule, completed_complete s rd (by simp only [MIN]; omega) (by simp only [MAX]; omega)⟩

/-! ### LN -/

theorem lnRule_of_nonpos {x : Int} (h : x ≤ 0) : lnRule x = .error .nonPositiveInput := by
  rw [lnRule, log2Rule_of_nonpos h]

/-- The product of a value in LOG2's range with LN2 is in range (R722). -/
theorem ln_fits {l : Int} (h : -(64 * 2 ^ 64) ≤ l ∧ l < 63 * 2 ^ 64) :
    MIN ≤ l * 0xB17217F7D1CF79AC / 2 ^ 64 ∧ l * 0xB17217F7D1CF79AC / 2 ^ 64 ≤ MAX := by
  simp only [MIN, MAX]
  omega

/-- LN of an operand whose LOG2 is l: MUL of l and LN2, which does not overflow (R721, R722). -/
theorem lnRule_of_log2Rule {x l : Int} (h : log2Rule x = .ok l) (hl : -(64 * 2 ^ 64) ≤ l ∧ l < 63 * 2 ^ 64) :
    lnRule x = .ok (l * 0xB17217F7D1CF79AC / 2 ^ 64) := by
  rw [lnRule, h]
  exact checkRange_of_fits (ln_fits hl)

/-- Settles O13: a non-positive operand fails as in LOG2, and otherwise the product with LN2 is `lnRule_of_log2Rule`. -/
theorem lnCommand : Obligations.LnCommand := by
  intro rd rs1 s
  have hword : word 0x09 rd rs1 0 = encode (.ln rd rs1) := word_code .ln rd rs1 0
  rw [hword]
  refine ⟨decodeOfEncode _ rfl, _, exec_eq _ s, fun hnonpos => ?_, fun hpos => ?_⟩
  · have hrule : outcome s.cfg (.ln rd rs1) s.reg = .error .nonPositiveInput := lnRule_of_nonpos hnonpos
    exact failed_finish _ hrule
  · obtain ⟨l, hlog2, hvalue, hrange⟩ := log2Rule_spec hpos (sval_range _).2
    exact ⟨l, hvalue, completed_finish _ (lnRule_of_log2Rule hlog2 hrange) (ln_fits hrange)⟩

end Sys2Proof.Machine
end

section
/-! EXP2 and EXP (R731 to R755): the accumulators of the constant product and their bounds, and the statements about the two
commands. -/

namespace Sys2Proof.Machine

open Sys2Proof.Spec

/-! ### The accumulators of EXP2's loop -/

/-- The accumulators of R731's loop for input x, by recursion on the number of steps taken. -/
def exp2Accumulator (x : Int) : Nat → Nat
  | 0 => 2 ^ 127
  | k + 1 =>
    if x / 2 ^ (64 - (k + 1)) % 2 = 1 then exp2Accumulator x k * exp2Const (k + 1) / 2 ^ 128 else exp2Accumulator x k

theorem exp2Accumulators_exp2Accumulator (x : Int) : Exp2Accumulators x (exp2Accumulator x) := by
  refine ⟨rfl, fun k hk _ => ?_⟩
  obtain ⟨j, rfl⟩ := Nat.exists_eq_add_of_le' hk
  rfl

/-- The fraction's bits are bits of x: the integer part is a multiple of 2^64 (R731). -/
theorem testBit_fraction (x : Int) {j : Nat} (hj : j < 64) : (x % 2 ^ 64).toNat.testBit j = true ↔ x / 2 ^ j % 2 = 1 := by
  have hpow : (2 : Int) ^ 64 = 2 ^ j * (2 ^ (63 - j) * 2) := by
    rw [← pow_succ, ← pow_add]
    congr 1
    omega
  have hsplit : x % 2 ^ 64 = x + 2 ^ j * (2 * -(2 ^ (63 - j) * (x / 2 ^ 64))) := by
    rw [Int.emod_def]
    linear_combination -(x / 2 ^ 64) * hpow
  have hbit : x % 2 ^ 64 / 2 ^ j % 2 = x / 2 ^ j % 2 := by
    rw [hsplit, Int.add_mul_ediv_left _ _ (by positivity), Int.add_mul_emod_self_left]
  rw [Nat.testBit_eq_decide_div_mod_eq, decide_eq_true_iff, ← hbit, ← Nat.cast_inj (R := Int)]
  push_cast
  rw [Int.toNat_of_nonneg (Int.emod_nonneg _ (by norm_num))]

/-- The model's loop ends where the sequence of accumulators ends (R731). -/
theorem exp2Product_of_accumulators {x : Int} {r : Nat → Nat} (h : Exp2Accumulators x r) : ∀ j : Nat, j ≤ 64 →
    exp2Product j (x % 2 ^ 64).toNat (r (64 - j)) = r 64 := by
  intro j
  induction j with
  | zero => intro _; rfl
  | succ j ih =>
    intro hj
    have hstep := h.2 (64 - j) (by omega) (by omega)
    have hlast : 64 - (64 - j) = j := by omega
    have hprev : 64 - j - 1 = 64 - (j + 1) := by omega
    rw [hlast, hprev] at hstep
    rw [exp2Product, Nat.shiftRight_eq_div_pow]
    simp only [testBit_fraction x hj]
    rw [← hstep]
    exact ih (by omega)

theorem exp2Const_gt : ∀ k ≤ 64, 1 ≤ k → 2 ^ 128 < exp2Const k := by decide +kernel

/-- The product of the first k constants is below 2 in their scale: the factors 2^(2^-1), 2^(2^-2) and so on multiply to less than
2 (R735). -/
theorem prod_exp2Const_lt : ∀ k ≤ 64, ∏ i ∈ Finset.range k, exp2Const (i + 1) < 2 ^ (128 * k + 1) := by decide +kernel

/-- A step does not lower the accumulator, and raises it at most by the step's constant, whether or not the step's bit is set. -/
theorem accumulator_step {x : Int} {r : Nat → Nat} (h : Exp2Accumulators x r) {k : Nat} (hk : k < 64) :
    r k ≤ r (k + 1) ∧ r (k + 1) * 2 ^ 128 ≤ r k * exp2Const (k + 1) := by
  have hmul : r k * 2 ^ 128 ≤ r k * exp2Const (k + 1) := Nat.mul_le_mul_left _ (exp2Const_gt (k + 1) hk (by omega)).le
  rw [h.2 (k + 1) (by omega) hk, Nat.add_sub_cancel]
  split
  · exact ⟨(Nat.le_div_iff_mul_le (by positivity)).mpr hmul, Nat.div_mul_le_self _ _⟩
  · exact ⟨le_rfl, hmul⟩

theorem accumulator_ge {x : Int} {r : Nat → Nat} (h : Exp2Accumulators x r) : ∀ k ≤ 64, 2 ^ 127 ≤ r k := by
  intro k
  induction k with
  | zero => intro _; exact h.1.ge
  | succ k ih => intro hk; exact (ih (by omega)).trans (accumulator_step h hk).1

/-- The accumulator is at most the product of all the constants so far, in their scale. -/
theorem accumulator_mul_le_prod {x : Int} {r : Nat → Nat} (h : Exp2Accumulators x r) :
    ∀ k ≤ 64, r k * 2 ^ (128 * k) ≤ 2 ^ 127 * ∏ i ∈ Finset.range k, exp2Const (i + 1) := by
  intro k
  induction k with
  | zero => intro _; simp [h.1]
  | succ k ih =>
    intro hk
    calc r (k + 1) * 2 ^ (128 * (k + 1)) = r (k + 1) * 2 ^ 128 * 2 ^ (128 * k) := by ring
      _ ≤ r k * exp2Const (k + 1) * 2 ^ (128 * k) := Nat.mul_le_mul_right _ (accumulator_step h hk).2
      _ = r k * 2 ^ (128 * k) * exp2Const (k + 1) := by ring
      _ ≤ 2 ^ 127 * (∏ i ∈ Finset.range k, exp2Const (i + 1)) * exp2Const (k + 1) := Nat.mul_le_mul_right _ (ih (by omega))
      _ = 2 ^ 127 * ∏ i ∈ Finset.range (k + 1), exp2Const (i + 1) := by rw [Finset.prod_range_succ, mul_assoc]

/-- The product of step k + 1 fits the 256-bit multiplier, whether or not the step's bit is set (R735). -/
theorem accumulator_mul_const_lt {x : Int} {r : Nat → Nat} (h : Exp2Accumulators x r) {k : Nat} (hk : k < 64) :
    r k * exp2Const (k + 1) < 2 ^ 256 := by
  refine Nat.lt_of_mul_lt_mul_right (a := 2 ^ (128 * k)) ?_
  calc r k * exp2Const (k + 1) * 2 ^ (128 * k) = r k * 2 ^ (128 * k) * exp2Const (k + 1) := by ring
    _ ≤ 2 ^ 127 * (∏ i ∈ Finset.range k, exp2Const (i + 1)) * exp2Const (k + 1) :=
      Nat.mul_le_mul_right _ (accumulator_mul_le_prod h k hk.le)
    _ = 2 ^ 127 * ∏ i ∈ Finset.range (k + 1), exp2Const (i + 1) := by rw [Finset.prod_range_succ, mul_assoc]
    _ < 2 ^ 127 * 2 ^ (128 * (k + 1) + 1) := Nat.mul_lt_mul_of_pos_left (prod_exp2Const_lt (k + 1) hk) (by positivity)
    _ = 2 ^ 256 * 2 ^ (128 * k) := by ring

theorem accumulator_lt {x : Int} {r : Nat → Nat} (h : Exp2Accumulators x r) : ∀ k ≤ 64, r k < 2 ^ 128
  | 0, _ => by rw [h.1]; norm_num
  | k + 1, hk => by
    have hstep := (accumulator_step h hk).2
    have hproduct := accumulator_mul_const_lt h hk
    omega

/-- Settles O29: the bounds on the accumulators and the products above, and the constants by `exp2Const_gt`. -/
theorem exp2AccumulatorBounds : Obligations.Exp2AccumulatorBounds := by
  intro x r h
  refine ⟨fun k hk => ⟨accumulator_ge h k hk, accumulator_lt h k hk⟩, fun k h1 hk => ⟨exp2Const_gt k hk h1, ?_⟩⟩
  obtain ⟨j, rfl⟩ := Nat.exists_eq_add_of_le' h1
  exact accumulator_mul_const_lt h hk

/-! ### EXP2 -/

theorem exp2Rule_of_ge {x : Int} (h : 63 * 2 ^ 64 ≤ x) : exp2Rule x = .error .overflow := by
  rw [exp2Rule, if_pos]
  simp only [shl]
  omega

theorem exp2Rule_of_le {x : Int} (h : x ≤ -(64 * 2 ^ 64)) : exp2Rule x = .ok 0 := by
  rw [exp2Rule, if_neg, if_pos]
  all_goals
    simp only [shl]
    omega

/-- Between its two thresholds EXP2 is the constant product shifted by the integer part (R731). -/
theorem exp2Rule_of_between {x : Int} (hlo : -(64 * 2 ^ 64) < x) (hhi : x < 63 * 2 ^ 64) :
    exp2Rule x = .ok (exp2Product 64 (x % 2 ^ 64).toNat (2 ^ 127) / 2 ^ (63 - x / 2 ^ 64).toNat : Nat) := by
  rw [exp2Rule, if_neg, if_neg, Nat.shiftRight_eq_div_pow, shr]
  all_goals
    simp only [shl]
    omega

/-- EXP2 between its two thresholds succeeds with R731's value, which fits: the shift is by at least one place (R733). -/
theorem exp2Rule_spec {x : Int} (hlo : -(64 * 2 ^ 64) < x) (hhi : x < 63 * 2 ^ 64) :
    ∃ v, exp2Rule x = .ok v ∧ Exp2Value x v ∧ 0 ≤ v ∧ v ≤ MAX := by
  have haccs := exp2Accumulators_exp2Accumulator x
  have hproduct : exp2Product 64 (x % 2 ^ 64).toNat (2 ^ 127) = exp2Accumulator x 64 :=
    exp2Product_of_accumulators haccs 64 le_rfl
  have hrule := exp2Rule_of_between hlo hhi
  rw [hproduct] at hrule
  have hshift : 2 ^ 1 ≤ 2 ^ (63 - x / 2 ^ 64).toNat := Nat.pow_le_pow_right (by decide) (by omega)
  have hdiv := Nat.div_le_div_left (a := exp2Accumulator x 64) hshift (by norm_num)
  have hlt := accumulator_lt haccs 64 le_rfl
  refine ⟨_, hrule, ⟨_, haccs, rfl⟩, Int.natCast_nonneg _, ?_⟩
  simp only [MAX]
  omega

theorem fits_of_nonneg {v : Int} (h : 0 ≤ v ∧ v ≤ MAX) : MIN ≤ v ∧ v ≤ MAX :=
  ⟨le_trans (by decide) h.1, h.2⟩

/-- Below 63.0 EXP2 succeeds, in [0, MAX] (R733, R734). -/
theorem exp2Rule_of_lt {x : Int} (h : x < 63 * 2 ^ 64) : ∃ v, exp2Rule x = .ok v ∧ 0 ≤ v ∧ v ≤ MAX := by
  by_cases hlo : x ≤ -(64 * 2 ^ 64)
  · exact ⟨0, exp2Rule_of_le hlo, le_rfl, by decide⟩
  · obtain ⟨v, hrule, -, hfits⟩ := exp2Rule_spec (not_le.mp hlo) h
    exact ⟨v, hrule, hfits⟩

/-- Settles O30: `exp2Rule_of_lt` below 63.0, and the overflow test from there on. -/
theorem exp2Fits : Obligations.Exp2Fits := fun _ => ⟨exp2Rule_of_lt, exp2Rule_of_ge⟩

/-- Settles O14: each of the three ranges by its lemma above. -/
theorem exp2Command : Obligations.Exp2Command := by
  intro rd rs1 s
  have hword : word 0x0A rd rs1 0 = encode (.exp2 rd rs1) := word_code .exp2 rd rs1 0
  rw [hword]
  refine ⟨decodeOfEncode _ rfl, _, exec_eq _ s, fun hge => ?_, fun hle => ?_, fun hlo hhi => ?_⟩
  · have hrule : outcome s.cfg (.exp2 rd rs1) s.reg = .error .overflow := exp2Rule_of_ge hge
    exact failed_finish _ hrule
  · exact completed_finish _ (exp2Rule_of_le hle) (by decide)
  · obtain ⟨v, hrule, hvalue, hfits⟩ := exp2Rule_spec hlo hhi
    exact ⟨v, hvalue, completed_finish _ hrule (fits_of_nonneg hfits)⟩

/-- The empty fraction selects no constant (R736). -/
theorem exp2Product_zero (j r : Nat) : exp2Product j 0 r = r := by
  induction j with
  | zero => rfl
  | succ j ih => simpa [exp2Product] using ih

/-- EXP2 of an integer is a power of two exactly (R736). -/
theorem exp2Rule_integer {j : Int} (hlo : -63 ≤ j) (hhi : j ≤ 62) : exp2Rule (j * 2 ^ 64) = .ok (2 ^ (j + 64).toNat) := by
  have hfrac : j * 2 ^ 64 % 2 ^ 64 = 0 := Int.mul_emod_left j _
  have hint : j * 2 ^ 64 / 2 ^ 64 = j := Int.mul_ediv_cancel j (by norm_num)
  have hshift : 2 ^ 127 / 2 ^ (63 - j).toNat = 2 ^ (j + 64).toNat := by
    rw [Nat.pow_div (by omega) (by decide)]
    congr 1
    omega
  rw [exp2Rule_of_between (by omega) (by omega), hfrac, hint, Int.toNat_zero, exp2Product_zero, hshift, Nat.cast_pow,
    Nat.cast_ofNat]

/-- Settles O31: EXP2 of an integer is `exp2Rule_integer`, and the power is at most 2^126. -/
theorem exp2OfIntegers : Obligations.Exp2OfIntegers := by
  intro rd rs1 s j hlo hhi hreg
  have hrule : outcome s.cfg (.exp2 rd rs1) s.reg = .ok (2 ^ (j + 64).toNat) :=
    (congrArg exp2Rule hreg).trans (exp2Rule_integer hlo hhi)
  have hle : (2 : Int) ^ (j + 64).toNat ≤ 2 ^ 126 := pow_le_pow_right₀ (by norm_num) (by omega)
  have hfits := fits_of_nonneg ⟨by positivity, hle.trans (by decide)⟩
  exact ⟨_, exec_of_outcome_ok hrule, completed_complete s rd hfits.1 hfits.2⟩

/-! ### EXP -/

theorem expRule_of_le {x : Int} (h : x ≤ -(64 * 2 ^ 64)) : expRule x = .ok 0 := by
  rw [expRule, if_pos]
  simp only [shl]
  omega

/-- Above -64.0 EXP is EXP2 of the product with LOG2E: the product is above MIN, and where it is above MAX, EXP2 overflows as MUL
does (R751, R754). -/
theorem expRule_of_gt {x : Int} (h : -(64 * 2 ^ 64) < x) : expRule x = exp2Rule (x * 0x171547652B82FE177 / 2 ^ 64) := by
  rw [expRule, if_neg (by simp only [shl]; omega)]
  by_cases hfits : MIN ≤ x * 0x171547652B82FE177 / 2 ^ 64 ∧ x * 0x171547652B82FE177 / 2 ^ 64 ≤ MAX
  · have hmul : mulRule x LOG2E_RAW = .ok (x * 0x171547652B82FE177 / 2 ^ 64) := checkRange_of_fits hfits
    rw [hmul]
  · have hmul : mulRule x LOG2E_RAW = .error .overflow := checkRange_of_not_fits hfits
    rw [hmul, exp2Rule_of_ge]
    simp only [MIN, MAX] at hfits
    omega

/-- Settles O15: zero up to -64.0, and otherwise the three ranges of EXP2 at y. -/
theorem expCommand : Obligations.ExpCommand := by
  intro rd rs1 s
  have hword : word 0x0B rd rs1 0 = encode (.exp rd rs1) := word_code .exp rd rs1 0
  rw [hword]
  refine ⟨decodeOfEncode _ rfl, _, exec_eq _ s, fun hle => ?_, fun hgt y hy => ?_⟩
  · exact completed_finish _ (expRule_of_le hle) (by decide)
  · have hexp2 : outcome s.cfg (.exp rd rs1) s.reg = exp2Rule y := (expRule_of_gt hgt).trans (congrArg exp2Rule hy.symm)
    refine ⟨fun hge => ?_, fun hle => ?_, fun hlo hhi => ?_⟩
    · exact failed_finish _ (hexp2.trans (exp2Rule_of_ge hge))
    · exact completed_finish _ (hexp2.trans (exp2Rule_of_le hle)) (by decide)
    · obtain ⟨v, hrule, hvalue, hfits⟩ := exp2Rule_spec hlo hhi
      exact ⟨v, hvalue, completed_finish _ (hexp2.trans hrule) (fits_of_nonneg hfits)⟩

/-- Settles O32: up to the boundary the product with LOG2E is at most -64.0; the next operand's value is computed. -/
theorem expUnderflowBoundary : Obligations.ExpUnderflowBoundary := by
  refine ⟨fun x hx => ?_, by decide +kernel⟩
  by_cases hle : x ≤ -(64 * 2 ^ 64)
  · exact expRule_of_le hle
  · rw [expRule_of_gt (not_le.mp hle)]
    exact exp2Rule_of_le (by omega)

/-- Settles O33: the product with LOG2E reaches 63.0 exactly at the boundary. -/
theorem expOverflowBoundary : Obligations.ExpOverflowBoundary := by
  refine ⟨fun x hx => ?_, fun x hx => ?_⟩
  · rw [expRule_of_gt (by omega)]
    exact exp2Rule_of_ge (by omega)
  · by_cases hle : x ≤ -(64 * 2 ^ 64)
    · exact ⟨0, expRule_of_le hle, le_rfl, by decide⟩
    · rw [expRule_of_gt (not_le.mp hle)]
      exact exp2Rule_of_lt (by omega)

end Sys2Proof.Machine
end

section
/-! EXP2's constants are exact floors (R745): 2^(2^-k) is bracketed by k integer square roots with 64 guard bits. -/

namespace Sys2Proof.Machine

/-- 2^(2^-k) with 192 fractional bits, by k truncated square roots of 2. -/
def rootOfTwo : Nat → Nat
  | 0 => 2 * 2 ^ 192
  | k + 1 => isqrt (rootOfTwo k * 2 ^ 192)

/-- Each root is the square root of the one before. -/
theorem two_rpow_sq (k : Nat) : ((2 : ℝ) ^ ((1 : ℝ) / 2 ^ (k + 1))) ^ 2 = 2 ^ ((1 : ℝ) / 2 ^ k) := by
  rw [← Real.rpow_mul_natCast (by norm_num)]
  congr 1
  field_simp
  ring

theorem rootOfTwo_ge (k : Nat) : 2 ^ 192 ≤ rootOfTwo k := by
  induction k with
  | zero => norm_num [rootOfTwo]
  | succ k ih =>
    have hroot := (isqrt_spec (rootOfTwo k * 2 ^ 192)).2
    have hsq := (Nat.mul_le_mul_right (2 ^ 192) ih).trans_lt hroot
    exact Nat.le_of_lt_succ (Nat.mul_self_lt_mul_self_iff.mp hsq)

/-- The computed root is at most two units below the real one: taking a root halves the error carried over, and truncating adds at
most one unit. -/
theorem rootOfTwo_bracket (k : Nat) :
    (rootOfTwo k : ℝ) ≤ 2 ^ ((1 : ℝ) / 2 ^ k) * 2 ^ 192 ∧ 2 ^ ((1 : ℝ) / 2 ^ k) * 2 ^ 192 < (rootOfTwo k : ℝ) + 2 := by
  induction k with
  | zero => norm_num [rootOfTwo]
  | succ k ih =>
    obtain ⟨hlo, hhi⟩ := ih
    have hsq := two_rpow_sq k
    have hge : (2 ^ 192 : ℝ) ≤ rootOfTwo (k + 1) := by exact_mod_cast rootOfTwo_ge (k + 1)
    have hle : (rootOfTwo (k + 1) * rootOfTwo (k + 1) : ℝ) ≤ rootOfTwo k * 2 ^ 192 := by
      exact_mod_cast (isqrt_spec (rootOfTwo k * 2 ^ 192)).1
    have hlt : (rootOfTwo k * 2 ^ 192 : ℝ) < (rootOfTwo (k + 1) + 1) * (rootOfTwo (k + 1) + 1) := by
      exact_mod_cast (isqrt_spec (rootOfTwo k * 2 ^ 192)).2
    constructor
    · refine le_of_pow_le_pow_left₀ two_ne_zero (by positivity) ?_
      rw [mul_pow, hsq]
      linarith
    · refine lt_of_pow_lt_pow_left₀ 2 (by positivity) ?_
      rw [mul_pow, hsq]
      linarith

/-- Every constant and its successor, with 64 guard bits, enclose the bracket. -/
theorem exp2Const_bracket : ∀ k ≤ 64, 1 ≤ k →
    exp2Const k * 2 ^ 64 ≤ rootOfTwo k ∧ rootOfTwo k + 2 ≤ (exp2Const k + 1) * 2 ^ 64 := by decide +kernel

/-- Settles O34: the constant and its successor enclose the bracket of the real root. -/
theorem exp2TableIsExactFloor : Obligations.Exp2TableIsExactFloor := by
  intro k h1 hk
  obtain ⟨hlo, hhi⟩ := rootOfTwo_bracket k
  obtain ⟨hle, hge⟩ := exp2Const_bracket k hk h1
  have hle' : (exp2Const k * 2 ^ 64 : ℝ) ≤ rootOfTwo k := by exact_mod_cast hle
  have hge' : (rootOfTwo k + 2 : ℝ) ≤ (exp2Const k + 1) * 2 ^ 64 := by exact_mod_cast hge
  rw [eq_comm, Int.floor_eq_iff, Int.cast_natCast]
  constructor <;> linarith

end Sys2Proof.Machine
end

section
/-! POW's datapath (R801, R802, R806): what one step gives, the ranges every step keeps, and where the loops end. -/

namespace Sys2Proof.Machine

/-! ### The steps -/

theorem powSmallStart_eq (m : Nat) : powSmallStart m = m * 2 ^ 63 := Nat.shiftLeft_eq _ _

theorem powSmallMul_eq (r t : Nat) : powSmallMul r t = r * t / 2 ^ 127 := Nat.shiftRight_eq_div_pow _ _

theorem powSmallSquare_eq (t : Nat) : powSmallSquare t = t * t / 2 ^ 127 := Nat.shiftRight_eq_div_pow _ _

theorem powMulStep_of_le {r t : Scaled} (h : r.mant * t.mant / 2 ^ 127 ≤ 2 ^ 128) :
    powMulStep r t = ⟨r.mant * t.mant / 2 ^ 127, r.exp + t.exp⟩ := by
  rw [powMulStep, Nat.shiftRight_eq_div_pow, if_neg (not_lt.mpr h)]

theorem powMulStep_of_gt {r t : Scaled} (h : 2 ^ 128 < r.mant * t.mant / 2 ^ 127) :
    powMulStep r t = ⟨r.mant * t.mant / 2 ^ 127 / 2, r.exp + t.exp + 1⟩ := by
  rw [powMulStep, Nat.shiftRight_eq_div_pow, if_pos h, Nat.shiftRight_one]

theorem powSquareStep_of_lt {t : Scaled} (h : t.mant * t.mant / 2 ^ 127 < 2 ^ 128) :
    powSquareStep t = ⟨t.mant * t.mant / 2 ^ 127, 2 * t.exp⟩ := by
  rw [powSquareStep, Nat.shiftRight_eq_div_pow, if_neg (not_le.mpr h)]

theorem powSquareStep_of_ge {t : Scaled} (h : 2 ^ 128 ≤ t.mant * t.mant / 2 ^ 127) :
    powSquareStep t = ⟨t.mant * t.mant / 2 ^ 127 / 2, 2 * t.exp + 1⟩ := by
  rw [powSquareStep, Nat.shiftRight_eq_div_pow, if_pos h, Nat.shiftRight_one]

/-! ### The ranges (R806) -/

theorem powSmallStart_le {m : Nat} (h : m ≤ 2 ^ 64) : powSmallStart m ≤ 2 ^ 127 :=
  calc powSmallStart m = m * 2 ^ 63 := powSmallStart_eq m
    _ ≤ 2 ^ 64 * 2 ^ 63 := Nat.mul_le_mul_right _ h
    _ = 2 ^ 127 := by norm_num

theorem powSmallMul_le {r t : Nat} (hr : r ≤ 2 ^ 128) (ht : t ≤ 2 ^ 127) : powSmallMul r t ≤ 2 ^ 128 := by
  have hprod := Nat.mul_le_mul hr ht
  rw [powSmallMul_eq]
  omega

theorem powSmallSquare_le {t : Nat} (ht : t ≤ 2 ^ 127) : powSmallSquare t ≤ 2 ^ 127 := by
  have hprod := Nat.mul_le_mul ht ht
  rw [powSmallSquare_eq]
  omega

/-- The base's highest bit is at place 64 to 127, and the normalised mantissa is exactly the base shifted up (R801). -/
theorem powLargeStart_spec {m : Nat} (hlo : 2 ^ 64 < m) (hhi : m ≤ 2 ^ 127) :
    64 ≤ msb m ∧ msb m ≤ 127 ∧ (powLargeStart m).mant = m * 2 ^ (127 - msb m) ∧
      2 ^ 127 ≤ (powLargeStart m).mant ∧ (powLargeStart m).mant < 2 ^ 128 := by
  obtain ⟨hle, hlt⟩ := msb_spec (n := m) (by omega)
  have h64 : 64 < msb m + 1 := (Nat.pow_lt_pow_iff_right (a := 2) (by decide)).mp (hlo.trans hlt)
  have h127 : msb m ≤ 127 := (Nat.pow_le_pow_iff_right (a := 2) (by decide)).mp (hle.trans hhi)
  have hmant : (powLargeStart m).mant = m * 2 ^ (127 - msb m) := Nat.shiftLeft_eq _ _
  refine ⟨by omega, h127, hmant, ?_, ?_⟩
  · calc 2 ^ 127 = 2 ^ msb m * 2 ^ (127 - msb m) := by rw [← pow_add]; congr 1; omega
      _ ≤ (powLargeStart m).mant := hmant ▸ Nat.mul_le_mul_right _ hle
  · calc (powLargeStart m).mant < 2 ^ (msb m + 1) * 2 ^ (127 - msb m) := hmant ▸ Nat.mul_lt_mul_of_pos_right hlt (by positivity)
      _ = 2 ^ 128 := by rw [← pow_add]; congr 1; omega

/-- The range of a base mantissa above 1.0 (R806). -/
def BaseMantissa (t : Scaled) : Prop := 2 ^ 127 ≤ t.mant ∧ t.mant < 2 ^ 128

/-- The range of a result mantissa above 1.0, closed above (R806, log entry 13). -/
def ResultMantissa (r : Scaled) : Prop := 2 ^ 127 ≤ r.mant ∧ r.mant ≤ 2 ^ 128

theorem BaseMantissa.resultMantissa {t : Scaled} (h : BaseMantissa t) : ResultMantissa t := ⟨h.1, h.2.le⟩

theorem baseMantissa_powLargeStart {m : Nat} (hlo : 2 ^ 64 < m) (hhi : m ≤ 2 ^ 127) : BaseMantissa (powLargeStart m) :=
  (powLargeStart_spec hlo hhi).2.2.2

theorem resultMantissa_one : ResultMantissa ⟨powOne, 0⟩ := ⟨by decide, le_rfl⟩

/-- The product of two mantissas lies in [2^254, 2^256), so it fits the 256-bit multiplier (R806). -/
theorem mantissa_mul_range {r t : Scaled} (hr : ResultMantissa r) (ht : BaseMantissa t) :
    2 ^ 254 ≤ r.mant * t.mant ∧ r.mant * t.mant < 2 ^ 256 := by
  have hlo := Nat.mul_le_mul hr.1 ht.1
  have hhi := (Nat.mul_le_mul_right t.mant hr.2).trans_lt (Nat.mul_lt_mul_of_pos_left ht.2 (by positivity))
  exact ⟨by omega, by omega⟩

theorem resultMantissa_powMulStep {r t : Scaled} (hr : ResultMantissa r) (ht : BaseMantissa t) :
    ResultMantissa (powMulStep r t) := by
  obtain ⟨hlo, hhi⟩ := mantissa_mul_range hr ht
  by_cases h : r.mant * t.mant / 2 ^ 127 ≤ 2 ^ 128
  · simp only [powMulStep_of_le h, ResultMantissa]
    omega
  · simp only [powMulStep_of_gt (not_le.mp h), ResultMantissa]
    omega

theorem baseMantissa_powSquareStep {t : Scaled} (ht : BaseMantissa t) : BaseMantissa (powSquareStep t) := by
  obtain ⟨hlo, hhi⟩ := mantissa_mul_range ht.resultMantissa ht
  by_cases h : t.mant * t.mant / 2 ^ 127 < 2 ^ 128
  · simp only [powSquareStep_of_lt h, BaseMantissa]
    omega
  · simp only [powSquareStep_of_ge (not_lt.mp h), BaseMantissa]
    omega

/-! ### The loops -/

@[simp] theorem powSmallLoop_exponent_zero (i r t : Nat) : powSmallLoop i r t 0 = r := by
  cases i <;> simp [powSmallLoop]

/-- One iteration, whether or not exponent bits are left: with none left the result no longer changes. -/
theorem powSmallLoop_succ (i r t e : Nat) :
    powSmallLoop (i + 1) r t e = powSmallLoop i (if e % 2 = 1 then powSmallMul r t else r) (powSmallSquare t) (e / 2) := by
  by_cases he : e = 0
  · simp [he]
  · rw [powSmallLoop, if_neg he]

@[simp] theorem powLargeLoop_exponent_zero (i : Nat) (r t : Scaled) : powLargeLoop i r t 0 = .ok r := by
  cases i <;> simp [powLargeLoop]

theorem powLargeLoop_of_overflow {i e : Nat} {r t : Scaled} (he : e ≠ 0) (ht : 64 ≤ t.exp) :
    powLargeLoop (i + 1) r t e = .error .overflow := by
  rw [powLargeLoop, if_neg he, if_pos ht]

/-- One iteration where place 1 of R805 raises nothing; with no exponent bits left the result no longer changes. -/
theorem powLargeLoop_succ {e : Nat} {t : Scaled} (i : Nat) (r : Scaled) (h : e ≠ 0 → t.exp < 64) :
    powLargeLoop (i + 1) r t e = powLargeLoop i (if e % 2 = 1 then powMulStep r t else r) (powSquareStep t) (e / 2) := by
  by_cases he : e = 0
  · simp [he]
  · rw [powLargeLoop, if_neg he, if_neg (not_le.mpr (h he))]

theorem powSmallLoop_le (i : Nat) : ∀ {r t : Nat} (e : Nat), r ≤ 2 ^ 128 → t ≤ 2 ^ 127 → powSmallLoop i r t e ≤ 2 ^ 128 := by
  induction i with
  | zero => intro r t e hr _; exact hr
  | succ i ih =>
    intro r t e hr ht
    rw [powSmallLoop_succ]
    refine ih _ ?_ (powSmallSquare_le ht)
    split
    · exact powSmallMul_le hr ht
    · exact hr

theorem resultMantissa_powLargeLoop (i : Nat) : ∀ {r t v : Scaled} {e : Nat}, ResultMantissa r → BaseMantissa t →
    powLargeLoop i r t e = .ok v → ResultMantissa v := by
  induction i with
  | zero =>
    intro r t v e hr _ h
    cases h
    exact hr
  | succ i ih =>
    intro r t v e hr ht h
    by_cases hover : e ≠ 0 ∧ 64 ≤ t.exp
    · rw [powLargeLoop_of_overflow hover.1 hover.2] at h
      cases h
    · rw [powLargeLoop_succ i r (fun he => not_le.mp (not_and.mp hover he))] at h
      refine ih ?_ (baseMantissa_powSquareStep ht) h
      split
      · exact resultMantissa_powMulStep hr ht
      · exact hr

/-! ### The rounded magnitude -/

theorem powMagnitude_of_le {m : Nat} (n : Nat) (h : m ≤ 2 ^ 64) :
    powMagnitude m n = .ok (powSmallLoop 128 powOne (powSmallStart m) n / 2 ^ 64) := by
  rw [powMagnitude, if_pos h, Nat.shiftRight_eq_div_pow]

/-- Above 1.0, a result below 2^64 is rounded down to 64 fractional bits (R801). -/
theorem powMagnitude_of_loop_ok {m n : Nat} {r : Scaled} (h : 2 ^ 64 < m)
    (hloop : powLargeLoop 128 ⟨powOne, 0⟩ (powLargeStart m) n = .ok r) (hexp : r.exp < 64) :
    powMagnitude m n = .ok (r.mant / 2 ^ (64 - r.exp)) := by
  rw [powMagnitude, if_neg (not_le.mpr h), hloop, ← Nat.shiftRight_eq_div_pow]
  exact if_neg (not_le.mpr hexp)

/-- Place 2 of R805. -/
theorem powMagnitude_of_result_overflow {m n : Nat} {r : Scaled} (h : 2 ^ 64 < m)
    (hloop : powLargeLoop 128 ⟨powOne, 0⟩ (powLargeStart m) n = .ok r) (hexp : 64 ≤ r.exp) :
    powMagnitude m n = .error .overflow := by
  rw [powMagnitude, if_neg (not_le.mpr h), hloop]
  exact if_pos hexp

/-- Place 1 of R805. -/
theorem powMagnitude_of_loop_error {m n : Nat} {e : ErrorKind} (h : 2 ^ 64 < m)
    (hloop : powLargeLoop 128 ⟨powOne, 0⟩ (powLargeStart m) n = .error e) : powMagnitude m n = .error e := by
  rw [powMagnitude, if_neg (not_le.mpr h), hloop]

/-- A magnitude above 1.0 that is not Overflow comes from a finished loop with a result below 2^64. -/
theorem powMagnitude_eq_ok_of_gt {m n v : Nat} (h : 2 ^ 64 < m) (hv : powMagnitude m n = .ok v) :
    ∃ r, powLargeLoop 128 ⟨powOne, 0⟩ (powLargeStart m) n = .ok r ∧ r.exp < 64 ∧ v = r.mant / 2 ^ (64 - r.exp) := by
  cases hloop : powLargeLoop 128 ⟨powOne, 0⟩ (powLargeStart m) n with
  | error e =>
    rw [powMagnitude_of_loop_error h hloop] at hv
    cases hv
  | ok r =>
    by_cases hexp : r.exp < 64
    · rw [powMagnitude_of_loop_ok h hloop hexp] at hv
      cases hv
      exact ⟨r, rfl, hexp, rfl⟩
    · rw [powMagnitude_of_result_overflow h hloop (not_lt.mp hexp)] at hv
      cases hv

/-- The rounded magnitude is at most 2^127: up to 1.0 it is at most 1.0, and above it at least one bit is shifted out (R806). -/
theorem powMagnitude_le {m n v : Nat} (hm : m ≤ 2 ^ 127) (h : powMagnitude m n = .ok v) : v ≤ 2 ^ 127 := by
  by_cases hsmall : m ≤ 2 ^ 64
  · have hloop := powSmallLoop_le 128 n (le_refl powOne) (powSmallStart_le hsmall)
    rw [powMagnitude_of_le n hsmall] at h
    cases h
    omega
  · obtain ⟨r, hloop, hexp, rfl⟩ := powMagnitude_eq_ok_of_gt (not_le.mp hsmall) h
    have hmant :=
      (resultMantissa_powLargeLoop 128 resultMantissa_one (baseMantissa_powLargeStart (not_le.mp hsmall) hm) hloop).2
    have hshift : 2 ^ 1 ≤ 2 ^ (64 - r.exp) := Nat.pow_le_pow_right (by decide) (by omega)
    have hdiv := Nat.div_le_div_left (a := r.mant) hshift (by norm_num)
    omega

/-- Settles O37: the start values and the steps keep the ranges above, and `powMagnitude_le` bounds the result. -/
theorem powDatapathBounds : Obligations.PowDatapathBounds := by
  refine ⟨by decide, fun m => powSmallStart_le, fun r t hr ht => ?_, fun m hlo hhi => ?_, fun r t hr0 hr1 ht0 ht1 => ?_,
    fun m n v => powMagnitude_le⟩
  · have hmul := Nat.mul_le_mul hr ht
    have hsq := Nat.mul_le_mul ht ht
    exact ⟨by omega, by omega, powSmallMul_le hr ht, powSmallSquare_le ht⟩
  · obtain ⟨-, h127, -, hrange⟩ := powLargeStart_spec hlo hhi
    have hexp : (powLargeStart m).exp = msb m - 64 := rfl
    exact ⟨hrange.1, hrange.2, by omega⟩
  · have hr : ResultMantissa r := ⟨hr0, hr1⟩
    have ht : BaseMantissa t := ⟨ht0, ht1⟩
    obtain ⟨hmul0, hmul1⟩ := resultMantissa_powMulStep hr ht
    obtain ⟨hsq0, hsq1⟩ := baseMantissa_powSquareStep ht
    exact ⟨(mantissa_mul_range hr ht).2, (mantissa_mul_range ht.resultMantissa ht).2, hmul0, hmul1, hsq0, hsq1⟩

end Sys2Proof.Machine
end

section
/-! R801's chains: result and base as sequences over the exponent's bits, and the loops' ends as places in them. -/

namespace Sys2Proof.Machine

open Sys2Proof.Spec

theorem testBit_eq_true_iff_div_mod (n j : Nat) : n.testBit j = true ↔ n / 2 ^ j % 2 = 1 := by
  rw [Nat.testBit_eq_decide_div_mod_eq, decide_eq_true_iff]

theorem div_two_pow_succ (n j : Nat) : n / 2 ^ j / 2 = n / 2 ^ (j + 1) := by
  rw [Nat.div_div_eq_div_mul, pow_succ]

/-! ### Up to 1.0 -/

/-- The base after j squares. -/
def powSmallBase (m : Nat) : Nat → Nat
  | 0 => powSmallStart m
  | j + 1 => powSmallSquare (powSmallBase m j)

/-- The result after the exponent bits 0 to j - 1. -/
def powSmallResult (m n : Nat) : Nat → Nat
  | 0 => powOne
  | j + 1 => if n.testBit j then powSmallMul (powSmallResult m n j) (powSmallBase m j) else powSmallResult m n j

theorem powSmallChain_powSmallResult (m n : Nat) : PowSmallChain m n (powSmallResult m n) (powSmallBase m) := by
  refine ⟨rfl, powSmallStart_eq m, fun j => ?_, fun j => powSmallSquare_eq _⟩
  rw [powSmallResult, powSmallMul_eq]

/-- One iteration of the loop is one place of the sequences. -/
theorem powSmallLoop_place (m n i j : Nat) :
    powSmallLoop (i + 1) (powSmallResult m n j) (powSmallBase m j) (n / 2 ^ j) =
      powSmallLoop i (powSmallResult m n (j + 1)) (powSmallBase m (j + 1)) (n / 2 ^ (j + 1)) := by
  rw [powSmallLoop_succ, div_two_pow_succ]
  simp only [powSmallResult, powSmallBase, testBit_eq_true_iff_div_mod]

theorem powSmallLoop_from_place (m n i : Nat) : ∀ j : Nat,
    powSmallLoop i (powSmallResult m n j) (powSmallBase m j) (n / 2 ^ j) = powSmallResult m n (j + i) := by
  induction i with
  | zero => intro j; rfl
  | succ i ih =>
    intro j
    rw [powSmallLoop_place, ih (j + 1), Nat.add_right_comm, Nat.add_assoc]

/-- The loop ends with the sequence's result. -/
theorem powSmallLoop_eq (m n i : Nat) : powSmallLoop i powOne (powSmallStart m) n = powSmallResult m n i := by
  simpa [powSmallResult, powSmallBase] using powSmallLoop_from_place m n i 0

/-! ### Above 1.0 -/

/-- The base after j squares. -/
def powLargeBase (m : Nat) : Nat → Scaled
  | 0 => powLargeStart m
  | j + 1 => powSquareStep (powLargeBase m j)

/-- The result after the exponent bits 0 to j - 1. -/
def powLargeResult (m n : Nat) : Nat → Scaled
  | 0 => ⟨powOne, 0⟩
  | j + 1 => if n.testBit j then powMulStep (powLargeResult m n j) (powLargeBase m j) else powLargeResult m n j

theorem powLargeResult_succ_of_clear {m n j : Nat} (h : n.testBit j = false) :
    powLargeResult m n (j + 1) = powLargeResult m n j := by
  simp [powLargeResult, h]

theorem powLargeResult_succ_of_set {m n j : Nat} (h : n.testBit j = true) :
    powLargeResult m n (j + 1) = powMulStep (powLargeResult m n j) (powLargeBase m j) := by
  simp [powLargeResult, h]

theorem powLargeChain_powLargeResult {m : Nat} (n : Nat) (h : 0 < m) :
    PowLargeChain m n (fun j => (powLargeResult m n j).mant) (fun j => (powLargeResult m n j).exp)
      (fun j => (powLargeBase m j).mant) (fun j => (powLargeBase m j).exp) := by
  obtain ⟨hle, hlt⟩ := msb_spec h
  refine ⟨⟨msb m, hle, hlt, Nat.shiftLeft_eq _ _, rfl⟩, rfl, rfl, fun j hbit => ?_, fun j hbit hr => ?_, fun j hbit hr => ?_,
    fun j ht => ?_, fun j ht => ?_⟩
  · simp only [powLargeResult_succ_of_clear hbit, and_self]
  · simp only [powLargeResult_succ_of_set hbit, powMulStep_of_le hr, and_self]
  · simp only [powLargeResult_succ_of_set hbit, powMulStep_of_gt hr, and_self]
  · simp only [powLargeBase, powSquareStep_of_lt ht, and_self]
  · simp only [powLargeBase, powSquareStep_of_ge ht, and_self]

/-- Where no base power reaches 2^64 with exponent bits left, one iteration of the loop is one place of the sequences. -/
theorem powLargeLoop_place {m n j : Nat} (i : Nat) (h : n / 2 ^ j ≠ 0 → (powLargeBase m j).exp < 64) :
    powLargeLoop (i + 1) (powLargeResult m n j) (powLargeBase m j) (n / 2 ^ j) =
      powLargeLoop i (powLargeResult m n (j + 1)) (powLargeBase m (j + 1)) (n / 2 ^ (j + 1)) := by
  rw [powLargeLoop_succ i _ h, div_two_pow_succ]
  simp only [powLargeResult, powLargeBase, testBit_eq_true_iff_div_mod]

theorem powLargeLoop_from_place {m n : Nat} (h : ∀ j, n / 2 ^ j ≠ 0 → (powLargeBase m j).exp < 64) (i : Nat) : ∀ j : Nat,
    powLargeLoop i (powLargeResult m n j) (powLargeBase m j) (n / 2 ^ j) = .ok (powLargeResult m n (j + i)) := by
  induction i with
  | zero => intro j; rfl
  | succ i ih =>
    intro j
    rw [powLargeLoop_place i (h j), ih (j + 1), Nat.add_right_comm, Nat.add_assoc]

/-- The loop ends with the sequence's result where no base power reaches 2^64 with exponent bits left. -/
theorem powLargeLoop_eq_ok {m n : Nat} (h : ∀ j, n / 2 ^ j ≠ 0 → (powLargeBase m j).exp < 64) (i : Nat) :
    powLargeLoop i ⟨powOne, 0⟩ (powLargeStart m) n = .ok (powLargeResult m n i) := by
  simpa [powLargeResult, powLargeBase] using powLargeLoop_from_place h i 0

theorem powLargeLoop_overflow_from_place {m n k : Nat} (hleft : n / 2 ^ k ≠ 0) (hexp : 64 ≤ (powLargeBase m k).exp) (i : Nat) :
    ∀ j : Nat, j ≤ k → k < j + i →
      powLargeLoop i (powLargeResult m n j) (powLargeBase m j) (n / 2 ^ j) = .error .overflow := by
  induction i with
  | zero => intro j hjk hkj; omega
  | succ i ih =>
    intro j hjk hkj
    by_cases hplace : n / 2 ^ j ≠ 0 → (powLargeBase m j).exp < 64
    · have hne : j ≠ k := by
        rintro rfl
        exact absurd (hplace hleft) (not_lt.mpr hexp)
      rw [powLargeLoop_place i hplace]
      exact ih (j + 1) (by omega) (by omega)
    · obtain ⟨hbits, hover⟩ := Classical.not_imp.mp hplace
      exact powLargeLoop_of_overflow hbits (not_lt.mp hover)

/-- The loop raises Overflow where some base power on its way reaches 2^64 with exponent bits left (R805, place 1). -/
theorem powLargeLoop_eq_overflow {m n k i : Nat} (hleft : n / 2 ^ k ≠ 0) (hexp : 64 ≤ (powLargeBase m k).exp) (hk : k < i) :
    powLargeLoop i ⟨powOne, 0⟩ (powLargeStart m) n = .error .overflow := by
  simpa [powLargeResult, powLargeBase] using powLargeLoop_overflow_from_place hleft hexp i 0 (Nat.zero_le k) (by omega)

/-- An exponent of 128 bits has none left from place 128 on. -/
theorem place_lt_of_exponent_left {n k : Nat} (hn : n < 2 ^ 128) (h : n / 2 ^ k ≠ 0) : k < 128 := by
  by_contra hk
  exact h (Nat.div_eq_of_lt (hn.trans_le (Nat.pow_le_pow_right (by decide) (not_lt.mp hk))))

/-! ### The magnitude of the chain -/

/-- Above 1.0 POW raises Overflow where a base power reaches 2^64 with exponent bits left, or where the result does (R805). -/
theorem powMagnitude_eq_overflow {m n : Nat} (hlarge : 2 ^ 64 < m) (hn : n < 2 ^ 128)
    (hover : (∃ j, n / 2 ^ j ≠ 0 ∧ 64 ≤ (powLargeBase m j).exp) ∨ 64 ≤ (powLargeResult m n 128).exp) :
    powMagnitude m n = .error .overflow := by
  by_cases hbase : ∃ j, n / 2 ^ j ≠ 0 ∧ 64 ≤ (powLargeBase m j).exp
  · obtain ⟨k, hleft, hexp⟩ := hbase
    exact powMagnitude_of_loop_error hlarge (powLargeLoop_eq_overflow hleft hexp (place_lt_of_exponent_left hn hleft))
  · have hfits : ∀ j, n / 2 ^ j ≠ 0 → (powLargeBase m j).exp < 64 := by simpa using hbase
    exact powMagnitude_of_result_overflow hlarge (powLargeLoop_eq_ok hfits 128) (hover.resolve_left hbase)

/-- What POW computes is the magnitude of R801's chain, and Overflow where the chain has none (R805, places 1 and 2). -/
theorem powMagnitude_spec (m : Nat) {n : Nat} (hn : n < 2 ^ 128) : PowMagnitude m n (powMagnitude m n).toOption := by
  refine ⟨fun hsmall => ⟨_, _, powSmallChain_powSmallResult m n, ?_⟩, fun hlarge =>
    ⟨_, _, _, _, powLargeChain_powLargeResult n (by omega), fun hover => ?_, fun hbase hexp => ?_⟩⟩
  · rw [powMagnitude_of_le n hsmall, powSmallLoop_eq, Except.toOption]
  · rw [powMagnitude_eq_overflow hlarge hn hover, Except.toOption]
  · rw [powMagnitude_of_loop_ok hlarge (powLargeLoop_eq_ok hbase 128) hexp, Except.toOption]

end Sys2Proof.Machine
end

section
/-! POW's rule (R803 to R805): the sign applied to the rounded magnitude, the special cases, and the statements about the command. -/

namespace Sys2Proof.Machine

open Sys2Proof.Spec

/-- rs1 is read as `sval` and rs2 as `uval` (R801, R808). -/
theorem outcome_pow (c : Config) (rd rs1 rs2 : Reg) (f : Reg → Raw) :
    outcome c (.pow rd rs1 rs2) f = powRule (f rs1).toInt (f rs2).toNat := rfl

/-! ### The sign and the range check -/

theorem powRule_of_magnitude_error {x : Int} {n : Nat} {e : ErrorKind} (h : powMagnitude x.natAbs n = .error e) :
    powRule x n = .error e := by
  rw [powRule, h]

/-- A negative base with an odd exponent gives the negated magnitude, which fits: it is at most 2^127 (R804, R805). -/
theorem powRule_of_negative {x : Int} {n mag : Nat} (h : powMagnitude x.natAbs n = .ok mag) (hx : x < 0) (hn : n % 2 = 1)
    (hmag : mag ≤ 2 ^ 127) : powRule x n = .ok (-mag) := by
  rw [powRule, h]
  exact (if_pos ⟨hx, hn⟩).trans (if_neg (not_lt.mpr hmag))

/-- Otherwise the result is the magnitude, with Overflow above MAX (R804, R805). -/
theorem powRule_of_nonneg {x : Int} {n mag : Nat} (h : powMagnitude x.natAbs n = .ok mag) (hsign : ¬ (x < 0 ∧ n % 2 = 1)) :
    powRule x n = if (mag : Int) > MAX then .error .overflow else .ok mag := by
  rw [powRule, h]
  exact if_neg hsign

theorem powRule_of_fits {x : Int} {n mag : Nat} (h : powMagnitude x.natAbs n = .ok mag) (hsign : ¬ (x < 0 ∧ n % 2 = 1))
    (hmag : mag < 2 ^ 127) : powRule x n = .ok mag := by
  rw [powRule_of_nonneg h hsign, if_neg (not_lt.mpr (natCast_fits.mpr hmag).2)]

theorem powRule_of_not_fits {x : Int} {n mag : Nat} (h : powMagnitude x.natAbs n = .ok mag) (hsign : ¬ (x < 0 ∧ n % 2 = 1))
    (hmag : 2 ^ 127 ≤ mag) : powRule x n = .error .overflow := by
  rw [powRule_of_nonneg h hsign, if_pos]
  simp only [MAX]
  omega

/-- What POW returns where it is not negative is a magnitude below 2^127. -/
theorem powRule_eq_ok_of_nonneg {x v : Int} {n : Nat} (hsign : ¬ (x < 0 ∧ n % 2 = 1)) (h : powRule x n = .ok v) :
    ∃ mag : Nat, powMagnitude x.natAbs n = .ok mag ∧ mag < 2 ^ 127 ∧ v = mag := by
  cases hmag : powMagnitude x.natAbs n with
  | error e =>
    rw [powRule_of_magnitude_error hmag] at h
    cases h
  | ok mag =>
    by_cases hfits : mag < 2 ^ 127
    · rw [powRule_of_fits hmag hsign hfits] at h
      cases h
      exact ⟨mag, rfl, hfits, rfl⟩
    · rw [powRule_of_not_fits hmag hsign (not_lt.mp hfits)] at h
      cases h

/-- Settles O36: -x has the magnitude of x, and the sign of its result is the exponent's parity. -/
theorem powSign : Obligations.PowSign := by
  intro x n v hx h
  obtain ⟨mag, hmag, hfits, rfl⟩ := powRule_eq_ok_of_nonneg (by omega) h
  have hneg : powMagnitude (-x).natAbs n = .ok mag := by rwa [Int.natAbs_neg]
  exact ⟨Int.natCast_nonneg mag, fun hodd => powRule_of_negative hneg (by omega) hodd hfits.le,
    fun heven => powRule_of_fits hneg (by omega) hfits⟩

/-! ### The special cases (R803) -/

/-- The magnitude of a register's value is at most 2^127 (R801). -/
theorem natAbs_sval_le (a : Raw) : (sval a).natAbs ≤ 2 ^ 127 := by
  obtain ⟨hmin, hmax⟩ := sval_range a
  simp only [MIN, MAX] at *
  omega

theorem powMagnitude_exponent_zero (m : Nat) : powMagnitude m 0 = .ok (2 ^ 64) := by
  by_cases h : m ≤ 2 ^ 64
  · rw [powMagnitude_of_le 0 h, powSmallLoop_exponent_zero, powOne, Nat.pow_div (by decide) (by decide)]
  · rw [powMagnitude_of_loop_ok (not_le.mp h) (powLargeLoop_exponent_zero _ _ _) (by decide), Nat.sub_zero, powOne,
      Nat.pow_div (by decide) (by decide)]

/-- The base 0 makes the result 0 at the exponent's first set bit, and it stays 0. -/
theorem powSmallLoop_base_zero (i : Nat) : ∀ {r e : Nat}, r = 0 ∨ e ≠ 0 ∧ e < 2 ^ i → powSmallLoop i r 0 e = 0 := by
  induction i with
  | zero =>
    intro r e h
    exact h.resolve_right (by omega)
  | succ i ih =>
    intro r e h
    rw [powSmallLoop_succ, powSmallMul_eq, powSmallSquare_eq, Nat.mul_zero, Nat.zero_div]
    refine ih ?_
    split <;> omega

theorem powMagnitude_base_zero {n : Nat} (h0 : n ≠ 0) (hn : n < 2 ^ 128) : powMagnitude 0 n = .ok 0 := by
  rw [powMagnitude_of_le n (Nat.zero_le _), powSmallStart_eq, Nat.zero_mul, powSmallLoop_base_zero 128 (.inr ⟨h0, hn⟩),
    Nat.zero_div]

/-- Multiplying 1.0 by the base loses no bits: doubling its mantissa gives the result's 128 fractional bits, and renormalising takes
the doubling back. -/
theorem powMulStep_one (t : Scaled) :
    powMulStep ⟨powOne, 0⟩ t = if 2 * t.mant ≤ 2 ^ 128 then ⟨2 * t.mant, t.exp⟩ else ⟨t.mant, t.exp + 1⟩ := by
  have hprod : powOne * t.mant / 2 ^ 127 = 2 * t.mant := by
    rw [powOne]
    omega
  split
  next h =>
    rw [powMulStep_of_le (hprod.trans_le h), hprod, Nat.zero_add]
  next h =>
    rw [powMulStep_of_gt ((not_le.mp h).trans_eq hprod.symm), hprod, Nat.zero_add, Nat.mul_div_cancel_left _ (by decide)]

theorem powSmallLoop_exponent_one (i r t : Nat) : powSmallLoop (i + 1) r t 1 = powSmallMul r t := by
  rw [powSmallLoop_succ]
  exact powSmallLoop_exponent_zero _ _ _

theorem powLargeLoop_exponent_one (i : Nat) {r t : Scaled} (h : t.exp < 64) :
    powLargeLoop (i + 1) r t 1 = .ok (powMulStep r t) := by
  rw [powLargeLoop_succ i r (fun _ => h)]
  exact powLargeLoop_exponent_zero _ _ _

/-- Shifting up by the places left above the highest bit, and down again by as many, loses nothing. -/
theorem mul_two_pow_div_two_pow {a b : Nat} (m : Nat) (h : a = b) : m * 2 ^ a / 2 ^ b = m := by
  rw [h, Nat.mul_div_cancel _ (by positivity)]

theorem powMagnitude_exponent_one {m : Nat} (hm : m ≤ 2 ^ 127) : powMagnitude m 1 = .ok m := by
  by_cases hsmall : m ≤ 2 ^ 64
  · rw [powMagnitude_of_le 1 hsmall, powSmallLoop_exponent_one, powSmallMul_eq, powSmallStart_eq, powOne]
    congr 1
    omega
  · obtain ⟨h64, h127, hmant, -⟩ := powLargeStart_spec (not_le.mp hsmall) hm
    have hexp : (powLargeStart m).exp = msb m - 64 := rfl
    have hloop := powLargeLoop_exponent_one 127 (r := ⟨powOne, 0⟩) (t := powLargeStart m) (by omega)
    rw [powMulStep_one] at hloop
    split at hloop
    next h =>
      have hdouble : 2 * (powLargeStart m).mant = m * 2 ^ (127 - msb m + 1) := by
        rw [hmant, pow_succ]
        ring
      rw [powMagnitude_of_loop_ok (not_le.mp hsmall) hloop (by simp only; omega)]
      simp only [hdouble, hexp]
      rw [mul_two_pow_div_two_pow m (by omega)]
    next h =>
      have h126 : msb m ≠ 127 := by
        intro hk
        rw [hk, Nat.sub_self, pow_zero, Nat.mul_one] at hmant
        omega
      rw [powMagnitude_of_loop_ok (not_le.mp hsmall) hloop (by simp only; omega)]
      simp only [hmant, hexp]
      rw [mul_two_pow_div_two_pow m (by omega)]

theorem powRule_exponent_zero (x : Int) : powRule x 0 = .ok (2 ^ 64) :=
  powRule_of_fits (powMagnitude_exponent_zero _) (by omega) (by decide)

theorem powRule_base_zero {n : Nat} (h0 : n ≠ 0) (hn : n < 2 ^ 128) : powRule 0 n = .ok 0 :=
  powRule_of_fits (powMagnitude_base_zero h0 hn) (by omega) (by decide)

/-- The sign comes back as it was, so MIN too is its own first power (R803, R807). -/
theorem powRule_exponent_one {x : Int} (hx : MIN ≤ x ∧ x ≤ MAX) : powRule x 1 = .ok x := by
  simp only [MIN, MAX] at hx
  have hle : x.natAbs ≤ 2 ^ 127 := by omega
  have hmag := powMagnitude_exponent_one hle
  by_cases hneg : x < 0
  · rw [powRule_of_negative hmag hneg rfl hle]
    congr 1
    omega
  · rw [powRule_of_fits hmag (by omega) (by omega)]
    congr 1
    omega

/-- Settles O35: the magnitude in each case is that of the lemmas above, and it fits with either sign. -/
theorem powSpecialCases : Obligations.PowSpecialCases := by
  intro rd rs1 rs2 s
  have hrule := outcome_pow s.cfg rd rs1 rs2 s.reg
  refine ⟨_, exec_eq _ s, fun hn => ?_, fun hx hn => ?_, fun hn => ?_⟩
  · rw [hn] at hrule
    exact completed_finish _ (hrule.trans (powRule_exponent_zero _)) (by decide)
  · rw [hx] at hrule
    exact completed_finish _ (hrule.trans (powRule_base_zero hn.ne' (s.reg rs2).isLt)) (by decide)
  · rw [hn] at hrule
    have hfits := sval_range (s.reg rs1)
    exact completed_finish _ (hrule.trans (powRule_exponent_one hfits)) hfits

/-! ### The command -/

/-- Settles O16: the magnitude is the chain's by `powMagnitude_spec`, and each clause is its lemma about `powRule`. -/
theorem powCommand : Obligations.PowCommand := by
  intro rd rs1 rs2 s
  have hword : word 0x0C rd rs1 rs2 = encode (.pow rd rs1 rs2) := word_code .pow rd rs1 rs2
  rw [hword]
  refine ⟨decodeOfEncode _ rfl, _, exec_eq _ s, _, powMagnitude_spec _ (s.reg rs2).isLt, ?_⟩
  have hrule := outcome_pow s.cfg rd rs1 rs2 s.reg
  cases hmag : powMagnitude (s.reg rs1).toInt.natAbs (s.reg rs2).toNat with
  | error e =>
    obtain rfl := powMagnitude_error hmag
    refine ⟨fun _ => failed_finish _ (hrule.trans (powRule_of_magnitude_error hmag)), nofun, nofun⟩
  | ok mag =>
    have hle : mag ≤ 2 ^ 127 := powMagnitude_le (natAbs_sval_le (s.reg rs1)) hmag
    refine ⟨nofun, fun v hv hneg hodd => ?_, fun v hv hsign => ⟨fun hfits => ?_, fun hover => ?_⟩⟩
    all_goals cases hv
    · refine completed_finish _ (hrule.trans (powRule_of_negative hmag hneg hodd hle)) ?_
      simp only [MIN, MAX]
      omega
    · have hlt : mag < 2 ^ 127 := by omega
      exact completed_finish _ (hrule.trans (powRule_of_fits hmag hsign hlt)) (natCast_fits.mpr hlt)
    · exact failed_finish _ (hrule.trans (powRule_of_not_fits hmag hsign hover))

end Sys2Proof.Machine
end

section
/-! FROMINT, TOINT and LDC (45_convert.md): what each rule answers, and the statements about the commands. -/

namespace Sys2Proof.Machine

open Sys2Proof.Spec

/-! ### FROMINT -/

/-- Settles O17: `fromIntRule` checks i · 2^64, which is in [MIN, MAX] exactly for the i of R901. -/
theorem fromintCommand : Obligations.FromintCommand := by
  intro rd rs1 s
  have hword : word 0x10 rd rs1 0 = encode (.fromint rd rs1) := word_code .fromint rd rs1 0
  rw [hword]
  have hrule : outcome s.cfg (.fromint rd rs1) s.reg = checkRange ((s.reg rs1).toInt * 2 ^ 64) :=
    congrArg checkRange (mul_comm _ _)
  obtain ⟨hcompleted, hfailed⟩ := finish_of_checkRange hrule s (encode (.fromint rd rs1)) rd
  exact ⟨decodeOfEncode _ rfl, _, exec_eq _ s, fun hin => hcompleted (by omega), fun hout => hfailed (by omega)⟩

/-! ### TOINT -/

/-- Truncation toward zero as R911 and R15 write it. -/
theorem toIntRule_towardZero (x : Int) : toIntRule .towardZero x = .ok (x.sign * (|x| / 2 ^ 64)) := by
  rw [toIntRule, tdiv_eq_sign_mul, show Int.sign (2 ^ 64) = 1 from rfl, mul_one,
    abs_of_pos (by norm_num : (0 : Int) < 2 ^ 64)]

theorem toIntRule_floor (x : Int) : toIntRule .floor x = .ok (x / 2 ^ 64) := rfl

/-- The truncated quotient is the floor of the magnitude under the operand's sign, so it stays in TOINT's range (R911). -/
theorem sign_mul_abs_ediv_range {x : Int} (hx : MIN ≤ x ∧ x ≤ MAX) :
    -2 ^ 63 ≤ x.sign * (|x| / 2 ^ 64) ∧ x.sign * (|x| / 2 ^ 64) ≤ 2 ^ 63 - 1 := by
  simp only [MIN, MAX] at hx
  obtain hneg | rfl | hpos := lt_trichotomy x 0
  · rw [Int.sign_eq_neg_one_of_neg hneg, abs_of_neg hneg]
    omega
  · decide
  · rw [Int.sign_eq_one_of_pos hpos, abs_of_pos hpos]
    omega

theorem ediv_range {x : Int} (hx : MIN ≤ x ∧ x ≤ MAX) : -2 ^ 63 ≤ x / 2 ^ 64 ∧ x / 2 ^ 64 ≤ 2 ^ 63 - 1 := by
  simp only [MIN, MAX] at hx
  omega

/-- TOINT succeeds under either rounding, within [-2^63, 2^63 - 1] (R911, R912). -/
theorem toIntRule_spec (p : ToIntRounding) {x : Int} (hx : MIN ≤ x ∧ x ≤ MAX) :
    ∃ r, toIntRule p x = .ok r ∧ (p = .towardZero → r = x.sign * (|x| / 2 ^ 64)) ∧ (p = .floor → r = x / 2 ^ 64) ∧
      -2 ^ 63 ≤ r ∧ r ≤ 2 ^ 63 - 1 := by
  cases p with
  | towardZero => exact ⟨_, toIntRule_towardZero x, fun _ => rfl, nofun, sign_mul_abs_ediv_range hx⟩
  | floor => exact ⟨_, toIntRule_floor x, nofun, fun _ => rfl, ediv_range hx⟩

/-- Settles O18: the value is `toIntRule_spec`'s, and its range lies in [MIN, MAX]. -/
theorem tointCommand : Obligations.TointCommand := by
  intro rd rs1 s
  have hword : word 0x11 rd rs1 0 = encode (.toint rd rs1) := word_code .toint rd rs1 0
  rw [hword]
  obtain ⟨r, hrule, htrunc, hfloor, hmin, hmax⟩ := toIntRule_spec s.cfg.toIntRounding (sval_range (s.reg rs1))
  have hfits : MIN ≤ r ∧ r ≤ MAX := by
    simp only [MIN, MAX]
    omega
  have hcompleted := completed_finish (s := s) (rd := rd) (encode (.toint rd rs1)) hrule hfits
  exact ⟨decodeOfEncode _ rfl, _, r, exec_eq _ s, htrunc, hfloor, hmin, hmax, hcompleted⟩

/-! ### LDC -/

/-- No command has a constant index of 8 or more (R305). -/
theorem decodeFields_ldc_of_ge (rd : Fin 16) {k : Fin 16} (h : 8 ≤ k.val) : decodeFields .ldc rd k 0 = .error .constIndex := if_pos h

theorem ldcRule_of_rom {k : Fin 16} {v : Int} (h : constRom k = some v) : ldcRule k = .ok v := by
  rw [ldcRule, h]

theorem constRom_fits : ∀ k : Fin 16, ∀ v ∈ constRom k, MIN ≤ v ∧ v ≤ MAX := by decide

/-- LDC completes with its ROM entry in every state: it reads no register (R931). -/
theorem completed_ldc (s : State) (rd : Reg) {k : Fin 16} {v : Int} (h : constRom k = some v) :
    Completed s (s.finish (encode (.ldc rd k)) rd (outcome s.cfg (.ldc rd k) s.reg)) rd v :=
  completed_finish _ (ldcRule_of_rom h) (constRom_fits k v h)

/-- Settles O19: from 8 on the field check fails, and below 8 the index selects the ROM's entry. -/
theorem ldcCommand : Obligations.LdcCommand := by
  intro rd k s
  have hword : word 0x18 rd k 0 = encode (.ldc rd k) := word_code .ldc rd k 0
  rw [hword]
  refine ⟨fun hge => (decode_encodeFields .ldc rd k 0).trans (decodeFields_ldc_of_ge rd hge), fun hlt => ?_⟩
  refine ⟨decodeOfEncode _ (decide_eq_true hlt), _, exec_eq _ s, ?_, ?_, ?_, ?_, ?_, ?_, ?_, ?_⟩
  all_goals
    rintro rfl
    exact completed_ldc s rd rfl

end Sys2Proof.Machine
end

section
/-! How a program's run takes its next word (R1012), the two ways that word can end, and the obligations on the run and on the idle
unit (R1014). -/

namespace Sys2Proof.Machine

/-! ### The next word of a run -/

theorem hostWrite_offCMD (w : Word) (s : State) : hostWrite offCMD w s = execute w s := by
  simp [hostWrite, offCMD]

/-- A word that has no `UninitRead` is issued, and CODE decides whether the run goes on (R1012). -/
theorem runProgram_of_execute {s t : State} {w : Word} (hread : s.uninitRead w = none) (hexec : execute w s = .next t)
    (ws : List Word) (pc : Nat) :
    runProgram (w :: ws) pc s = if t.code = 0 then runProgram ws (pc + 1) t else .faultedAt pc t := by
  simp only [runProgram, hread, hostWrite_offCMD, hexec]

/-- A command whose sources are written is no `UninitRead` (R104). -/
theorem uninitRead_of_written {s : State} {w : Word} {i : Instr} (hdec : decode w = .ok i)
    (hwritten : ∀ r ∈ i.sources, ∀ j : Fin 4, s.written[r.val][j.val] = true) : s.uninitRead w = none := by
  simp only [State.uninitRead, hdec, List.find?_eq_none]
  intro r hr
  simp [(allWritten_iff s r).mpr (hwritten r hr)]

/-- An illegal word reads no register (R305). -/
theorem uninitRead_of_error {w : Word} {e : DecodeError} (hdec : decode w = .error e) (s : State) : s.uninitRead w = none := by
  simp only [State.uninitRead, hdec]

/-! ### The obligations -/

/-- Settles O58: neither a command with written sources nor an illegal word is an `UninitRead`, so `runProgram_of_execute` gives the
run by the CODE of the state `execute` answers, which is 6 for an illegal word. -/
theorem runFollowsHostDiscipline : Obligations.RunFollowsHostDiscipline := by
  refine ⟨fun pc s => rfl, fun i w ws pc s hdec hwritten => ?_, fun e w ws pc s hdec => ?_⟩
  · have hexec := exec_eq i s
    have hrun := runProgram_of_execute (uninitRead_of_written hdec hwritten) ((execute_of_ok hdec s).trans hexec) ws pc
    exact ⟨_, hexec, fun hc => hrun.trans (if_pos hc), fun hc => hrun.trans (if_neg hc)⟩
  · have hrun := runProgram_of_execute (uninitRead_of_error hdec s) (execute_of_error hdec s) ws pc
    exact ⟨_, failed_raiseError s .illegalCommand w, hrun.trans (if_neg ErrorKind.illegalCommand.code_ne_zero)⟩

/-- Settles O47: with no event pending, `step` serves none. -/
theorem idleKeepsState : Obligations.IdleKeepsState := fun _ => step_of_idle

end Sys2Proof.Machine
end

section
/-! That every CMD write ends (R1107), and what a step does to the model's own fields: the parameters, the pending accesses and the
count of resets (log entries 3, 5, 7 and 9). -/

namespace Sys2Proof.Machine

/-- Settles O50: `execute_answers`, by whether the word decodes. -/
theorem everyCommandEnds : Obligations.EveryCommandEnds := execute_answers

/-- Only serving a reset counts one (log entry 7). -/
theorem step_resets {s t : State} (h : step s = .next t) :
    t.resets = s.resets ∨ (t.resets = s.resets + 1 ∧ ∃ w rest, s.bus = .reset w :: rest) := by
  obtain ⟨-, rfl⟩ | ⟨ev, rest, hbus, ⟨_, _, _, -, -, rfl⟩ | ⟨_, _, _, _, -, -, hwrite⟩ | ⟨w, rfl, rfl⟩⟩ := step_next h
  · exact .inl rfl
  · exact .inl rfl
  · obtain ⟨-, -, -, hresets⟩ := hostSideKept_hostWrite hwrite
    exact .inl hresets
  · exact .inr ⟨State.resets_resetUnit _, w, rest, hbus⟩

/-- Settles O56: the parameters and the pending accesses by `step_cfg_bus`, the count of resets by `step_resets`. -/
theorem stepKeepsConfiguration : Obligations.StepKeepsConfiguration := by
  intro s t h
  obtain ⟨hcfg, hbus⟩ := step_cfg_bus h
  exact ⟨hcfg, hbus, step_resets h⟩

end Sys2Proof.Machine
end
